-- ==== Sys2Proof/Word.lean ====
section
/-! DEFINITION. The word types of the CORE: bytes, 16-bit words, register selectors, key codes
(spec 10_state.md R10, R11; 30_encoding.md R60, R62). -/

namespace Sys2Proof

/-- A byte of memory or a general register's value (R11, R41). -/
abbrev Byte := BitVec 8

/-- A 16-bit quantity: an instruction word, `PC`, `I` or a return address (R13, R14, R16, R60). -/
abbrev Word := BitVec 16

/-- A register selector: one of `V0` to `VF` (R11, R65). -/
abbrev Reg := Fin 16

/-- A key code 0x0 to 0xF (R20). -/
abbrev KeyCode := BitVec 4

/-- The flag register `VF` is general register 15 (R12). -/
abbrev VF : Reg := 15

end Sys2Proof
end

