-- ==== Sys2Proof/Syntax.lean ====
section
/-! DEFINITION. The instructions of the CORE ISA: one constructor for each of the 33 rows of
30_encoding.md R67 (spec/opcode_table.json). A nibble the dispatcher does not read (R68) is no operand. -/

namespace Sys2Proof

/-- The 33 instructions (R67, R70). `x`, `y` select registers, `nn` is an 8-bit immediate, `nnn` a
12-bit immediate, `n` a count of sprite rows (R65). -/
inductive Instr where
  /-- `00E0` CLS (R126). -/
  | cls
  /-- `00EE` RET (R91). -/
  | ret
  /-- `1nnn` JP nnn (R92). -/
  | jp (nnn : BitVec 12)
  /-- `2nnn` CALL nnn (R93). -/
  | call (nnn : BitVec 12)
  /-- `3xnn` SE Vx, nn (R95). -/
  | seImm (x : Reg) (nn : Byte)
  /-- `4xnn` SNE Vx, nn (R96). -/
  | sneImm (x : Reg) (nn : Byte)
  /-- `5xy?` SE Vx, Vy (R97). -/
  | seReg (x y : Reg)
  /-- `6xnn` LD Vx, nn (R100). -/
  | ldImm (x : Reg) (nn : Byte)
  /-- `7xnn` ADD Vx, nn (R101). -/
  | addImm (x : Reg) (nn : Byte)
  /-- `8xy0` LD Vx, Vy (R102). -/
  | ldReg (x y : Reg)
  /-- `8xy2` AND Vx, Vy (R103). -/
  | and (x y : Reg)
  /-- `8xy3` XOR Vx, Vy (R104). -/
  | xor (x y : Reg)
  /-- `8xy4` ADD Vx, Vy (R106). -/
  | addReg (x y : Reg)
  /-- `8xy5` SUB Vx, Vy (R107). -/
  | sub (x y : Reg)
  /-- `8x?6` SHR Vx (R108). -/
  | shr (x : Reg)
  /-- `8xy7` SUBN Vx, Vy (R109). -/
  | subn (x y : Reg)
  /-- `8x?E` SHL Vx (R110). -/
  | shl (x : Reg)
  /-- `9xy?` SNE Vx, Vy (R98). -/
  | sneReg (x y : Reg)
  /-- `Annn` LD I, nnn (R115). -/
  | ldI (nnn : BitVec 12)
  /-- `Bnnn` JP V0, nnn (R94). -/
  | jpV0 (nnn : BitVec 12)
  /-- `Cxnn` RND Vx, nn (R142). -/
  | rnd (x : Reg) (nn : Byte)
  /-- `Dxyn` DRW Vx, Vy, n (R127); `n` is a count, 0 to 15 in a well-formed instruction (R65). -/
  | drw (x y : Reg) (n : Nat)
  /-- `Ex9E` SKP Vx (R136). -/
  | skp (x : Reg)
  /-- `ExA1` SKNP Vx (R137). -/
  | sknp (x : Reg)
  /-- `Fx07` LD Vx, DT (R139). -/
  | ldVxDt (x : Reg)
  /-- `Fx0A` LD Vx, K (R138). -/
  | ldVxK (x : Reg)
  /-- `Fx15` LD DT, Vx (R140). -/
  | ldDtVx (x : Reg)
  /-- `Fx18` LD ST, Vx (R141). -/
  | ldStVx (x : Reg)
  /-- `Fx1E` ADD I, Vx (R116). -/
  | addIVx (x : Reg)
  /-- `Fx29` LD F, Vx (R117). -/
  | ldFVx (x : Reg)
  /-- `Fx33` LD B, Vx (R118). -/
  | ldBVx (x : Reg)
  /-- `Fx55` LD [I], Vx (R119). -/
  | ldMemVx (x : Reg)
  /-- `Fx65` LD Vx, [I] (R120). -/
  | ldVxMem (x : Reg)
  deriving DecidableEq, Repr

/-- The instruction's `mnemonic` key in spec/opcode_table.json (R74). -/
def Instr.mnemonic : Instr → String
  | .cls => "CLS"
  | .ret => "RET"
  | .jp _ => "JP"
  | .call _ => "CALL"
  | .seImm _ _ => "SE_IMM"
  | .sneImm _ _ => "SNE_IMM"
  | .seReg _ _ => "SE_REG"
  | .ldImm _ _ => "LD_IMM"
  | .addImm _ _ => "ADD_IMM"
  | .ldReg _ _ => "LD_REG"
  | .and _ _ => "AND"
  | .xor _ _ => "XOR"
  | .addReg _ _ => "ADD_REG"
  | .sub _ _ => "SUB"
  | .shr _ => "SHR"
  | .subn _ _ => "SUBN"
  | .shl _ => "SHL"
  | .sneReg _ _ => "SNE_REG"
  | .ldI _ => "LD_I"
  | .jpV0 _ => "JP_V0"
  | .rnd _ _ => "RND"
  | .drw _ _ _ => "DRW"
  | .skp _ => "SKP"
  | .sknp _ => "SKNP"
  | .ldVxDt _ => "LD_VX_DT"
  | .ldVxK _ => "LD_VX_K"
  | .ldDtVx _ => "LD_DT_VX"
  | .ldStVx _ => "LD_ST_VX"
  | .addIVx _ => "ADD_I_VX"
  | .ldFVx _ => "LD_F_VX"
  | .ldBVx _ => "LD_B_VX"
  | .ldMemVx _ => "LD_MEM_VX"
  | .ldVxMem _ => "LD_VX_MEM"

end Sys2Proof
end

