-- ==== Sys2Proof/WellFormed.lean ====
section
/-! DEFINITION. Well-formed instructions: those some word encodes. Registers and immediates have their
field's width by type; the one operand held as a number, the row count of `Dxyn`, must fit its
four bits (30_encoding.md R62, R65). -/

namespace Sys2Proof

/-- Every operand fits the field the encoding gives it (R65: "`n` in `Dxyn` is a count 0 to 15"). -/
def Instr.wellFormed : Instr → Bool
  | .drw _ _ n => decide (n ≤ 15)
  | .cls | .ret | .jp _ | .call _ | .seImm _ _ | .sneImm _ _ | .seReg _ _ | .ldImm _ _
  | .addImm _ _ | .ldReg _ _ | .and _ _ | .xor _ _ | .addReg _ _ | .sub _ _ | .shr _
  | .subn _ _ | .shl _ | .sneReg _ _ | .ldI _ | .jpV0 _ | .rnd _ _ | .skp _ | .sknp _
  | .ldVxDt _ | .ldVxK _ | .ldDtVx _ | .ldStVx _ | .addIVx _ | .ldFVx _ | .ldBVx _
  | .ldMemVx _ | .ldVxMem _ => true

/-- `Instr.wellFormed` as a proposition. -/
abbrev Instr.WellFormed (i : Instr) : Prop := i.wellFormed = true

end Sys2Proof
end

