-- ==== Sys2Proof/Decode.lean ====
section
/-! DEFINITION. The instruction decoder (30_encoding.md R60 to R72) and, after it, the encoder
(R67, R74). Decoding is total: a word of no row of the opcode map is rejected by name. -/

namespace Sys2Proof

/-! ## Fields -/

/-- The record of fields the decoder extracts from every word (R62). -/
structure Fields where
  op : BitVec 4
  x : BitVec 4
  y : BitVec 4
  n : BitVec 4
  nn : BitVec 8
  nnn : BitVec 12
  deriving DecidableEq, Repr

/-- `decode` of R62: pure bit extraction, total (R63). -/
def fieldsOf (w : Word) : Fields where
  op := w.extractLsb' 12 4
  x := w.extractLsb' 8 4
  y := w.extractLsb' 4 4
  n := w.extractLsb' 0 4
  nn := w.extractLsb' 0 8
  nnn := w.extractLsb' 0 12

/-- The register a selector field names (R65). -/
def regOf (f : BitVec 4) : Reg := ⟨f.toNat, f.isLt⟩

/-! ## Dispatch -/

/-- The functions of top nibble 8, selected by `n` (R83). -/
def dispatchAlu (x y n : BitVec 4) : Option Instr :=
  match n with
  | 0x0 => some (.ldReg (regOf x) (regOf y))
  | 0x2 => some (.and (regOf x) (regOf y))
  | 0x3 => some (.xor (regOf x) (regOf y))
  | 0x4 => some (.addReg (regOf x) (regOf y))
  | 0x5 => some (.sub (regOf x) (regOf y))
  | 0x6 => some (.shr (regOf x))
  | 0x7 => some (.subn (regOf x) (regOf y))
  | 0xE => some (.shl (regOf x))
  | _ => none

/-- The functions of top nibble 0, selected by `nn` (R83). -/
def dispatchZero (nn : BitVec 8) : Option Instr :=
  match nn with
  | 0xE0 => some .cls
  | 0xEE => some .ret
  | _ => none

/-- The functions of top nibble 0xE, selected by `nn` (R83). -/
def dispatchKey (x : BitVec 4) (nn : BitVec 8) : Option Instr :=
  match nn with
  | 0x9E => some (.skp (regOf x))
  | 0xA1 => some (.sknp (regOf x))
  | _ => none

/-- The functions of top nibble 0xF, selected by `nn` (R83). -/
def dispatchMisc (x : BitVec 4) (nn : BitVec 8) : Option Instr :=
  match nn with
  | 0x07 => some (.ldVxDt (regOf x))
  | 0x0A => some (.ldVxK (regOf x))
  | 0x15 => some (.ldDtVx (regOf x))
  | 0x18 => some (.ldStVx (regOf x))
  | 0x1E => some (.addIVx (regOf x))
  | 0x29 => some (.ldFVx (regOf x))
  | 0x33 => some (.ldBVx (regOf x))
  | 0x55 => some (.ldMemVx (regOf x))
  | 0x65 => some (.ldVxMem (regOf x))
  | _ => none

/-- `Dispatch` of R83 and R66: a total function of `(op, nn, n)`, with the operands filled in.
The last arm is never reached: every top nibble has a row (R71). -/
def dispatch (f : Fields) : Option Instr :=
  match f.op with
  | 0x0 => dispatchZero f.nn
  | 0x1 => some (.jp f.nnn)
  | 0x2 => some (.call f.nnn)
  | 0x3 => some (.seImm (regOf f.x) f.nn)
  | 0x4 => some (.sneImm (regOf f.x) f.nn)
  | 0x5 => some (.seReg (regOf f.x) (regOf f.y))
  | 0x6 => some (.ldImm (regOf f.x) f.nn)
  | 0x7 => some (.addImm (regOf f.x) f.nn)
  | 0x8 => dispatchAlu f.x f.y f.n
  | 0x9 => some (.sneReg (regOf f.x) (regOf f.y))
  | 0xA => some (.ldI f.nnn)
  | 0xB => some (.jpV0 f.nnn)
  | 0xC => some (.rnd (regOf f.x) f.nn)
  | 0xD => some (.drw (regOf f.x) (regOf f.y) f.n.toNat)
  | 0xE => dispatchKey f.x f.nn
  | 0xF => dispatchMisc f.x f.nn
  | _ => none

/-- The instruction of a 16-bit word; `none` is an unsupported word (R71). -/
def decodeWord (w : Word) : Option Instr := dispatch (fieldsOf w)

/-! ## Bytes -/

/-- Why a byte sequence is rejected. -/
inductive DecodeError where
  /-- Fewer than the two bytes every instruction has (R60). Raised by `decodeBytes`; on the machine
  the fetch raises MemoryOutOfBounds instead (R81). -/
  | truncated
  /-- The word matches no row of the opcode map (R71). -/
  | unsupportedInstruction (w : Word)
  deriving DecidableEq, Repr

/-- The word of two bytes, high byte at the lower address (R47, R60). -/
def wordOfBytes (hi lo : Byte) : Word := hi ++ lo

/-- Reads one instruction off the front of a byte sequence (R60), with the bytes that follow it. -/
def decodeBytes : List Byte → Except DecodeError (Instr × List Byte)
  | hi :: lo :: rest =>
    match decodeWord (wordOfBytes hi lo) with
    | some i => .ok (i, rest)
    | none => .error (.unsupportedInstruction (wordOfBytes hi lo))
  | [_] => .error .truncated
  | [] => .error .truncated

/-- The two bytes of a word in the order memory holds them (R47). -/
def bytesOfWord (w : Word) : List Byte := [w.extractLsb' 8 8, w.extractLsb' 0 8]

/-- The word that spec/opcode_table.json numbers `w` on `nbits` bits: bits above `nbits` are 0. -/
def tableWord (nbits w : Nat) : Word := BitVec.ofNat 16 (w % 2 ^ nbits)

/-- The instruction this decoder reads from the table's word `w` of `nbits` bits. -/
def decodeTableWord (nbits w : Nat) : Option Instr :=
  match decodeBytes (bytesOfWord (tableWord nbits w)) with
  | .ok (i, _) => some i
  | .error _ => none

/-! ## The encoder -/

/-- The selector field of a register. -/
def nibbleOf (r : Reg) : BitVec 4 := BitVec.ofNat 4 r.val

/-- Format `NNN` (R61). -/
def encodeNnn (op : BitVec 4) (nnn : BitVec 12) : Word := op ++ nnn

/-- Format `XNN`, and `XF8` and `F8` where `nn` is a function code (R61). -/
def encodeXnn (op : BitVec 4) (x : BitVec 4) (nn : BitVec 8) : Word := op ++ x ++ nn

/-- Formats `XY`, `XYN`, `XYF`, `XF4` (R61). -/
def encodeXyn (op x y n : BitVec 4) : Word := op ++ x ++ y ++ n

/-- The word of an instruction: the row's fixed bits, its fields as R62 places them, and 0 in every
nibble the dispatcher does not read (R74; DESIGN CHOICE, the spec's D8; log 16). -/
def encode : Instr → Word
  | .cls => encodeXnn 0x0 0x0 0xE0
  | .ret => encodeXnn 0x0 0x0 0xEE
  | .jp nnn => encodeNnn 0x1 nnn
  | .call nnn => encodeNnn 0x2 nnn
  | .seImm x nn => encodeXnn 0x3 (nibbleOf x) nn
  | .sneImm x nn => encodeXnn 0x4 (nibbleOf x) nn
  | .seReg x y => encodeXyn 0x5 (nibbleOf x) (nibbleOf y) 0x0
  | .ldImm x nn => encodeXnn 0x6 (nibbleOf x) nn
  | .addImm x nn => encodeXnn 0x7 (nibbleOf x) nn
  | .ldReg x y => encodeXyn 0x8 (nibbleOf x) (nibbleOf y) 0x0
  | .and x y => encodeXyn 0x8 (nibbleOf x) (nibbleOf y) 0x2
  | .xor x y => encodeXyn 0x8 (nibbleOf x) (nibbleOf y) 0x3
  | .addReg x y => encodeXyn 0x8 (nibbleOf x) (nibbleOf y) 0x4
  | .sub x y => encodeXyn 0x8 (nibbleOf x) (nibbleOf y) 0x5
  | .shr x => encodeXyn 0x8 (nibbleOf x) 0x0 0x6
  | .subn x y => encodeXyn 0x8 (nibbleOf x) (nibbleOf y) 0x7
  | .shl x => encodeXyn 0x8 (nibbleOf x) 0x0 0xE
  | .sneReg x y => encodeXyn 0x9 (nibbleOf x) (nibbleOf y) 0x0
  | .ldI nnn => encodeNnn 0xA nnn
  | .jpV0 nnn => encodeNnn 0xB nnn
  | .rnd x nn => encodeXnn 0xC (nibbleOf x) nn
  | .drw x y n => encodeXyn 0xD (nibbleOf x) (nibbleOf y) (BitVec.ofNat 4 n)
  | .skp x => encodeXnn 0xE (nibbleOf x) 0x9E
  | .sknp x => encodeXnn 0xE (nibbleOf x) 0xA1
  | .ldVxDt x => encodeXnn 0xF (nibbleOf x) 0x07
  | .ldVxK x => encodeXnn 0xF (nibbleOf x) 0x0A
  | .ldDtVx x => encodeXnn 0xF (nibbleOf x) 0x15
  | .ldStVx x => encodeXnn 0xF (nibbleOf x) 0x18
  | .addIVx x => encodeXnn 0xF (nibbleOf x) 0x1E
  | .ldFVx x => encodeXnn 0xF (nibbleOf x) 0x29
  | .ldBVx x => encodeXnn 0xF (nibbleOf x) 0x33
  | .ldMemVx x => encodeXnn 0xF (nibbleOf x) 0x55
  | .ldVxMem x => encodeXnn 0xF (nibbleOf x) 0x65

/-- The bytes of an instruction in memory order (R47). -/
def encodeBytes (i : Instr) : List Byte := bytesOfWord (encode i)

/-! ## The opcode map -/

/-- A row of the opcode map (R67): a word `w` is that instruction exactly when `w and mask = match`. -/
structure OpcodeRow where
  mnemonic : String
  mask : Word
  value : Word
  deriving DecidableEq, Repr

/-- Rows of top nibbles 0 to 7. -/
def opcodeMapLow : List OpcodeRow :=
  [⟨"CLS", 0xF0FF, 0x00E0⟩, ⟨"RET", 0xF0FF, 0x00EE⟩, ⟨"JP", 0xF000, 0x1000⟩,
   ⟨"CALL", 0xF000, 0x2000⟩, ⟨"SE_IMM", 0xF000, 0x3000⟩, ⟨"SNE_IMM", 0xF000, 0x4000⟩,
   ⟨"SE_REG", 0xF000, 0x5000⟩, ⟨"LD_IMM", 0xF000, 0x6000⟩, ⟨"ADD_IMM", 0xF000, 0x7000⟩]

/-- Rows of top nibbles 8 to D. -/
def opcodeMapMid : List OpcodeRow :=
  [⟨"LD_REG", 0xF00F, 0x8000⟩, ⟨"AND", 0xF00F, 0x8002⟩, ⟨"XOR", 0xF00F, 0x8003⟩,
   ⟨"ADD_REG", 0xF00F, 0x8004⟩, ⟨"SUB", 0xF00F, 0x8005⟩, ⟨"SHR", 0xF00F, 0x8006⟩,
   ⟨"SUBN", 0xF00F, 0x8007⟩, ⟨"SHL", 0xF00F, 0x800E⟩, ⟨"SNE_REG", 0xF000, 0x9000⟩,
   ⟨"LD_I", 0xF000, 0xA000⟩, ⟨"JP_V0", 0xF000, 0xB000⟩, ⟨"RND", 0xF000, 0xC000⟩,
   ⟨"DRW", 0xF000, 0xD000⟩]

/-- Rows of top nibbles E and F. -/
def opcodeMapHigh : List OpcodeRow :=
  [⟨"SKP", 0xF0FF, 0xE09E⟩, ⟨"SKNP", 0xF0FF, 0xE0A1⟩, ⟨"LD_VX_DT", 0xF0FF, 0xF007⟩,
   ⟨"LD_VX_K", 0xF0FF, 0xF00A⟩, ⟨"LD_DT_VX", 0xF0FF, 0xF015⟩, ⟨"LD_ST_VX", 0xF0FF, 0xF018⟩,
   ⟨"ADD_I_VX", 0xF0FF, 0xF01E⟩, ⟨"LD_F_VX", 0xF0FF, 0xF029⟩, ⟨"LD_B_VX", 0xF0FF, 0xF033⟩,
   ⟨"LD_MEM_VX", 0xF0FF, 0xF055⟩, ⟨"LD_VX_MEM", 0xF0FF, 0xF065⟩]

/-- The opcode map of R67, row for row (spec/opcode_table.json). The decoder above is written from
R83; that the two agree is a statement of its own. -/
def opcodeMap : List OpcodeRow := opcodeMapLow ++ opcodeMapMid ++ opcodeMapHigh

/-- The bits of its word that an instruction reads: all but the unread nibble of the formats `F8`
(the `x` nibble), `XY` (the `n` nibble) and `XF4` (the `y` nibble) (R61, R68). -/
def Instr.readMask : Instr → Word
  | .cls | .ret => 0xF0FF
  | .seReg _ _ | .sneReg _ _ => 0xFFF0
  | .shr _ | .shl _ => 0xFF0F
  | .jp _ | .call _ | .seImm _ _ | .sneImm _ _ | .ldImm _ _ | .addImm _ _ | .ldReg _ _ | .and _ _
  | .xor _ _ | .addReg _ _ | .sub _ _ | .subn _ _ | .ldI _ | .jpV0 _ | .rnd _ _ | .drw _ _ _
  | .skp _ | .sknp _ | .ldVxDt _ | .ldVxK _ | .ldDtVx _ | .ldStVx _ | .addIVx _ | .ldFVx _
  | .ldBVx _ | .ldMemVx _ | .ldVxMem _ => 0xFFFF

/-- The word matches the row (R67). -/
def OpcodeRow.matchesWord (r : OpcodeRow) (w : Word) : Bool := w &&& r.mask == r.value

end Sys2Proof
end

