-- ==== Sys2Proof/Event.lean ====
section
/-! DEFINITION. The events by which the host acts on the CORE (00_scope.md R6). -/

namespace Sys2Proof.Machine

/-- The events of R6. -/
inductive Event where
  /-- `reset` (R170). -/
  | reset
  /-- `load(image)` (R173). -/
  | load (image : List Byte)
  /-- `step(rnd)` (R80). -/
  | step (rnd : Byte)
  /-- `tick` (R160). -/
  | tick
  /-- `set_key(k)` (R135). -/
  | setKey (k : Option KeyCode)
  /-- `read_fb` (R133). -/
  | readFb
  deriving DecidableEq, Repr, Inhabited

end Sys2Proof.Machine
end

