-- ==== Sys2Proof/Config.lean ====
section
/-! DEFINITION. The implementation parameters of 00_scope.md R4 with the constraints of R5, the font
table of 10_state.md R32, and the two free values of the model: the random byte of R143 and the host's
next event where nothing is known of it (R187). -/

namespace Sys2Proof.Config

/-- `MEM_SIZE`, bytes of memory (R4). DESIGN CHOICE (the spec's own, D1; log 1). -/
abbrev memSize : Nat := 4096

/-- `LOAD_ADDR`, where the program image and `PC` start (R4; the source gives 0x200). -/
abbrev loadAddr : Nat := 0x200

/-- `FONT_BASE` (R4). -/
abbrev fontBase : Nat := 0

/-- `FONT_LEN` (R4). -/
abbrev fontLen : Nat := 80

/-- `GLYPH_LEN`, bytes per glyph (R4). -/
abbrev glyphLen : Nat := 5

/-- `STACK_DEPTH`, the greatest number of return addresses held (R4, R17). -/
abbrev stackDepth : Nat := 16

/-- `W`, the display's width in pixels (R4). -/
abbrev width : Nat := 64

/-- `H`, the display's height in pixels (R4). -/
abbrev height : Nat := 32

/-- The record of the size parameters that R4 asks for. -/
structure Params where
  memSize : Nat
  loadAddr : Nat
  fontBase : Nat
  fontLen : Nat
  glyphLen : Nat
  stackDepth : Nat
  width : Nat
  height : Nat
  deriving DecidableEq, Repr

/-- The constraints of R5, under which the rules are well defined. -/
abbrev Params.Ok (p : Params) : Prop :=
  p.memSize ≤ 65536 ∧ p.loadAddr < p.memSize ∧ p.fontBase + p.fontLen ≤ p.loadAddr ∧
    8 ≤ p.width ∧ 15 ≤ p.height ∧ 1 ≤ p.stackDepth

/-- This hardware's parameters: the conventional value of each (R4). -/
def params : Params :=
  ⟨memSize, loadAddr, fontBase, fontLen, glyphLen, stackDepth, width, height⟩

/-- The font's glyphs 0 to 7 (R32). PRESUMED: general knowledge, as the spec says itself (log 2). -/
def fontLow : List Byte :=
  [0xF0, 0x90, 0x90, 0x90, 0xF0] ++
  [0x20, 0x60, 0x20, 0x20, 0x70] ++
  [0xF0, 0x10, 0xF0, 0x80, 0xF0] ++
  [0xF0, 0x10, 0xF0, 0x10, 0xF0] ++
  [0x90, 0x90, 0xF0, 0x10, 0x10] ++
  [0xF0, 0x80, 0xF0, 0x10, 0xF0] ++
  [0xF0, 0x80, 0xF0, 0x90, 0xF0] ++
  [0xF0, 0x10, 0x20, 0x40, 0x40]

/-- The font's glyphs 8 to F (R32). PRESUMED: general knowledge, as the spec says itself (log 2). -/
def fontHigh : List Byte :=
  [0xF0, 0x90, 0xF0, 0x90, 0xF0] ++
  [0xF0, 0x90, 0xF0, 0x10, 0xF0] ++
  [0xF0, 0x90, 0xF0, 0x90, 0x90] ++
  [0xE0, 0x90, 0xE0, 0x90, 0xE0] ++
  [0xF0, 0x80, 0x80, 0x80, 0xF0] ++
  [0xE0, 0x90, 0x90, 0x90, 0xE0] ++
  [0xF0, 0x80, 0xF0, 0x80, 0xF0] ++
  [0xF0, 0x80, 0xF0, 0x80, 0x80]

/-- `FONT`, the 80 font bytes, glyph `g` at `g * 5` (R32). -/
def font : List Byte := fontLow ++ fontHigh

/-- The random byte of a `step` event to which the host gave none (R143): free, under no law.
The argument is the model's counter of bytes drawn, so that each draw is a fresh free value (log 10). -/
opaque rndByte : Nat → Byte

/-- The events of a host of which nothing is known (70_reset_and_hazards.md R187), free, under no law: the
argument is the model's counter of such events taken (log 33). -/
opaque hostEvent : Nat → Machine.Event

end Sys2Proof.Config
end

