-- ==== Sys2Proof/Machine/State.lean ====
section
/-! DEFINITION. The state of the CORE (10_state.md R10: "the following elements and nothing else"),
the host's side of it as plain data (00_scope.md R6), the reasons a step can stop, and reset. -/

namespace Sys2Proof.Machine

/-- Memory (R21): the bytes that differ from the reset contents, at strictly rising addresses.
What an unlisted address reads as is `Memory.blank` (Machine/Ops.lean). -/
abbrev Memory := List Host.Cell

/-- The display buffer (R22): rows 0 (top) to 31, each of columns 0 (left) to 63. -/
abbrev FrameBuffer := Vector (Vector Bool Config.width) Config.height

/-- `ERR.code` (R24): none, or the name of the fatal condition. -/
inductive ErrCode where
  | none
  | unsupportedInstruction
  | memoryOutOfBounds
  | callStackUnderflow
  | callStackOverflow
  deriving DecidableEq, Repr

/-- The error record `ERR` (R24). -/
structure ErrRecord where
  code : ErrCode
  pc : Word
  wordValid : Bool
  word : Word
  addr : BitVec 17
  deriving DecidableEq, Repr

/-- The cleared error record: "every field 0" (R27). -/
def ErrRecord.clear : ErrRecord := ⟨.none, 0, false, 0, 0⟩

/-- The four fatal conditions, with the one payload a rule uses (R150). -/
inductive Condition where
  | unsupportedInstruction
  | memoryOutOfBounds (addr : Nat)
  | callStackUnderflow
  | callStackOverflow
  deriving DecidableEq, Repr

/-- What follows the events the host has queued (70_reset_and_hazards.md R187: a run is "a finite or
infinite sequence of events chosen by the host"). DESIGN CHOICE for its form (log 9). -/
inductive Tail where
  /-- `step` events without end, each with a free random byte (log 10). -/
  | steps
  /-- These events over and over, without end. -/
  | cycle (first : Event) (others : List Event)
  /-- Events without end of which nothing is known: any infinite sequence (log 33). -/
  | free
  deriving DecidableEq, Repr

/-- The host's side, the model's own and no state of the CORE (log 9, 10, 11, 33). -/
structure Env where
  /-- The events the host has queued, first one first (R6). DESIGN CHOICE (log 9). -/
  schedule : List Event
  /-- The events that follow the queued ones (R187). DESIGN CHOICE (log 9). -/
  tail : Tail
  /-- From `reset` until the first `load` or `step`: the time in which `load` is legal (R173, R188). -/
  booting : Bool
  /-- The `rnd` input of the `step` event in progress (R26, R143); `none` between events. -/
  rndIn : Option Byte
  /-- How many free random bytes have been drawn (log 10). -/
  rndCount : Nat
  /-- How many free events have been taken (log 33). -/
  eventCount : Nat
  deriving DecidableEq, Repr

/-- The whole state: the eleven elements of R10 and the host's side. -/
structure State where
  /-- `V[0..15]` (R11, R12). -/
  v : Vector Byte 16
  /-- `I` (R13). -/
  i : Word
  /-- `PC` (R14). -/
  pc : Word
  /-- `STACK`, the most recent return address first; `SP` is its length (R16, R17; log 5). -/
  stack : List Word
  /-- `DT` (R18). -/
  dt : Byte
  /-- `ST` (R19). -/
  st : Byte
  /-- `KEY` (R20). -/
  key : Option KeyCode
  /-- `MEM` (R21). -/
  mem : Memory
  /-- `FB` (R22). -/
  fb : FrameBuffer
  /-- `HALT` (R23). -/
  halt : Bool
  /-- `ERR` (R24). -/
  err : ErrRecord
  /-- The host's side. -/
  env : Env
  deriving DecidableEq, Repr

/-- Why the machine stops with a fault: never. Every fault of this hardware is one of the four fatal
conditions, whose entry the spec describes (60_exceptions.md R155): the step that raises one ends in
a next state with `HALT` and `ERR` written. So this type has no constructor (log 6). Safe: nothing is
left out, since the halted machine is a state. -/
inductive Fault
  deriving DecidableEq, Repr

/-- Why a step has no meaning. -/
inductive Refusal where
  /-- Raised by an arm of `exec` whose instruction has no meaning yet. No arm does. Safe. -/
  | notModelled (mnemonic : String)
  /-- Raised by a `load` event outside the time from `reset` to the first `load` or `step`: "the source
  describes no loading into a running machine, and a model gives that no meaning" (R173; U20 `refuse`).
  No instruction raises it. Safe: the machine stops where the spec gives no meaning (log 11). -/
  | loadOutsideBoot
  deriving DecidableEq, Repr

/-- The outcome of one instruction or one step. -/
abbrev Result := Host.Outcome State Fault Refusal

/-- `FB` with every cell 0 (R27, R126). -/
def FrameBuffer.blank : FrameBuffer := Vector.replicate Config.height (Vector.replicate Config.width false)

/-- The state right after `reset` (70_reset_and_hazards.md R170, 10_state.md R27): `PC` at the load
address, memory at its reset contents, everything else 0 or empty. DESIGN CHOICE (the spec's own, D18)
for all but `PC` and the placement of the font (log 3). -/
def State.reset : State where
  v := Vector.replicate 16 0
  i := 0
  pc := BitVec.ofNat 16 Config.loadAddr
  stack := []
  dt := 0
  st := 0
  key := none
  mem := []
  fb := FrameBuffer.blank
  halt := false
  err := ErrRecord.clear
  env := ⟨[], .steps, true, none, 0, 0⟩

end Sys2Proof.Machine
end

