-- ==== Sys2Proof/Machine/Ops.lean ====
section
/-! DEFINITION. The named operations over memory, registers, the display and the call stack, and the
one operation that takes a fatal condition (20_memory.md, 10_state.md, 60_exceptions.md R155). -/

namespace Sys2Proof.Machine

/-! ## Memory as data -/

/-- What an address reads as when nothing has been written there: the reset contents, that is the font
at `FONT_BASE` and 0 elsewhere (R27, R32, R48). PRESUMED for the font bytes (log 2), DESIGN CHOICE (the
spec's own, D18) for the zeros (log 3, 4). -/
def Memory.blank (a : Nat) : Byte :=
  if Config.fontBase ≤ a then (Config.font[a - Config.fontBase]?).getD 0 else 0

/-- The byte at an address. -/
def Memory.read : Memory → Nat → Byte
  | [], a => Memory.blank a
  | (b, v) :: m, a => if b = a then v else Memory.read m a

/-- Puts a byte into the list at its place. -/
def Memory.put : Memory → Nat → Byte → Memory
  | [], a, v => [(a, v)]
  | (b, w) :: m, a, v =>
    if a < b then (a, v) :: (b, w) :: m
    else if a = b then (a, v) :: m
    else (b, w) :: Memory.put m a v

/-- Takes an address out of the list. -/
def Memory.erase (m : Memory) (a : Nat) : Memory := m.filter fun c => c.1 != a

/-- Stores a byte and keeps the canonical form: a byte equal to the reset contents is not listed. -/
def Memory.write (m : Memory) (a : Nat) (v : Byte) : Memory :=
  if v = Memory.blank a then Memory.erase m a else Memory.put m a v

/-- Bytes at consecutive ascending addresses (R41, R47). -/
def Memory.readBytes (m : Memory) (a : Nat) : Nat → List Byte
  | 0 => []
  | k + 1 => Memory.read m a :: Memory.readBytes m (a + 1) k

/-- Stores bytes at consecutive ascending addresses (R41, R47). -/
def Memory.writeBytes (m : Memory) (a : Nat) : List Byte → Memory
  | [] => m
  | v :: vs => Memory.writeBytes (Memory.write m a v) (a + 1) vs

/-- The list from address `lo` on is in canonical form. -/
def Memory.wfFrom (lo : Nat) : Memory → Bool
  | [] => true
  | (a, v) :: m =>
    decide (lo ≤ a) && decide (a < Config.memSize) && (v != Memory.blank a) && Memory.wfFrom (a + 1) m

/-- The canonical form: addresses strictly rising and in bounds, no entry equal to what its address
reads as when unlisted. -/
def Memory.wf (m : Memory) : Bool := Memory.wfFrom 0 m

/-! ## Registers -/

/-- `V[r]` (R11). -/
def State.getV (s : State) (r : Reg) : Byte := s.v[r]

/-- `V[r] <- b` (R11). -/
def State.setV (s : State) (r : Reg) (b : Byte) : State := { s with v := s.v.set r b }

/-- `VF <- b` (R12). -/
def State.setFlag (s : State) (b : Byte) : State := s.setV VF b

/-- `V[0..]` replaced by the bytes of a list, as far as it goes (R120). -/
def State.loadV (s : State) (bs : List Byte) : State :=
  { s with v := Vector.ofFn fun r => (bs[r.val]?).getD (s.getV r) }

/-- `PC <- a` (R15). -/
def State.setPc (s : State) (a : Word) : State := { s with pc := a }

/-- `I <- a` (R13). -/
def State.setI (s : State) (a : Word) : State := { s with i := a }

/-- `DT <- b` (R18). -/
def State.setDt (s : State) (b : Byte) : State := { s with dt := b }

/-- `ST <- b` (R19). -/
def State.setSt (s : State) (b : Byte) : State := { s with st := b }

/-- `KEY <- k` (R20). -/
def State.setKey (s : State) (k : Option KeyCode) : State := { s with key := k }

/-- `FB` replaced (R22). -/
def State.setFb (s : State) (fb : FrameBuffer) : State := { s with fb := fb }

/-- `PC <- (PC + 2) mod 65536` (R15, R84). -/
def State.advance (s : State) : State := s.setPc (s.pc + 2)

/-- A skip: `PC + 4` when taken, `PC + 2` when not (R15, R90). -/
def State.skipIf (s : State) (taken : Bool) : State := s.setPc (if taken then s.pc + 4 else s.pc + 2)

/-- The byte at an address (R42, the read itself). -/
def State.readMem (s : State) (a : Nat) : Byte := s.mem.read a

/-- Bytes stored at consecutive addresses from `a` (R43, the writes themselves). -/
def State.storeBytes (s : State) (a : Nat) (bs : List Byte) : State :=
  { s with mem := s.mem.writeBytes a bs }

/-! ## The display -/

/-- The column a pixel falls in: `mod W` (R129). -/
def wrapX (px : Nat) : Fin Config.width := ⟨px % Config.width, Nat.mod_lt _ (by decide)⟩

/-- The row a pixel falls in: `mod H` (R129). -/
def wrapY (py : Nat) : Fin Config.height := ⟨py % Config.height, Nat.mod_lt _ (by decide)⟩

/-- `FB[y][x]` (R22). -/
def FrameBuffer.get (fb : FrameBuffer) (x : Fin Config.width) (y : Fin Config.height) : Bool := fb[y][x]

/-- `FB[y][x] <- FB[y][x] xor 1` (R127). -/
def FrameBuffer.flip (fb : FrameBuffer) (x : Fin Config.width) (y : Fin Config.height) : FrameBuffer :=
  fb.set y (fb[y].set x (!fb[y][x]))

/-- The cells in the order the host sees them, cell `y * W + x` (R22, R133). DESIGN CHOICE (the
spec's own, D21; log 24). -/
def FrameBuffer.cells (fb : FrameBuffer) : List Bool := (fb.toList.map fun row => row.toList).flatten

/-! ## The call stack -/

/-- `SP`, the number of live entries (R17). -/
def State.sp (s : State) : Nat := s.stack.length

/-- `STACK[k]` for a live slot; `none` for `k >= SP`, which no rule can observe (R17). -/
def State.slot (s : State) (k : Nat) : Option Word := s.stack.reverse[k]?

/-- `push(PC + 2)` and `PC <- a`, the bound already checked (R17, R93). -/
def State.callTo (s : State) (a : Word) : State := { s with stack := (s.pc + 2) :: s.stack, pc := a }

/-- `PC <- a` and the entries left after a pop (R17, R91). -/
def State.returnTo (s : State) (a : Word) (rest : List Word) : State := { s with stack := rest, pc := a }

/-! ## Fetch -/

/-- `Fetch` (40_step_fetch_decode.md R81): the word at `PC`, or the address that is out of bounds. The
sum `PC + 1` does not wrap (R44). DESIGN CHOICE (the spec's own, D22) for the order of the checks
(log 25). -/
def fetch (s : State) : Except Nat Word :=
  if Config.memSize ≤ s.pc.toNat then .error s.pc.toNat
  else if Config.memSize ≤ s.pc.toNat + 1 then .error (s.pc.toNat + 1)
  else .ok (s.readMem s.pc.toNat ++ s.readMem (s.pc.toNat + 1))

/-- The word of the instruction in execution, if its fetch completes. No step writes memory or `PC`
before its last check (R85), so this is the word the step fetched (log 8). -/
def fetchedWord (s : State) : Option Word :=
  match fetch s with
  | .ok w => some w
  | .error _ => none

/-! ## Fatal conditions -/

/-- The name recorded for a condition (R24, R150). -/
def Condition.code : Condition → ErrCode
  | .unsupportedInstruction => .unsupportedInstruction
  | .memoryOutOfBounds _ => .memoryOutOfBounds
  | .callStackUnderflow => .callStackUnderflow
  | .callStackOverflow => .callStackOverflow

/-- The address recorded for a condition: 0 unless it is MemoryOutOfBounds (R24). -/
def Condition.addr : Condition → BitVec 17
  | .memoryOutOfBounds a => BitVec.ofNat 17 a
  | .unsupportedInstruction => 0
  | .callStackUnderflow => 0
  | .callStackOverflow => 0

/-- The number of an error code on the 3-bit port (R24, R150). -/
def ErrCode.num : ErrCode → BitVec 3
  | .none => 0
  | .unsupportedInstruction => 1
  | .memoryOutOfBounds => 2
  | .callStackUnderflow => 3
  | .callStackOverflow => 4

/-- The record of a condition raised at `PC` with the fetched word, if any (R24, R155). -/
def errorOf (c : Condition) (w : Option Word) (s : State) : ErrRecord where
  code := c.code
  pc := s.pc
  wordValid := w.isSome
  word := w.getD 0
  addr := c.addr

/-- TAKING A FATAL CONDITION (60_exceptions.md R155), the one exception entry of this hardware:
`ERR` is written, `HALT` is set, no other state changes, `PC` included. There is no handler, and no
return from it but the `reset` event (R156). DESIGN CHOICE (the spec's own, D17; log 6). -/
def raiseWith (c : Condition) (w : Option Word) (s : State) : State :=
  { s with halt := true, err := errorOf c w s }

/-- `raise C(info)` inside a step (R155): the record carries the word this step fetched. -/
def raise (c : Condition) (s : State) : State := raiseWith c (fetchedWord s) s

/-! ## The range check -/

/-- Some byte of the block `base .. base + k - 1` is out of bounds; a block of no byte never is
(20_memory.md R45; DESIGN CHOICE, the spec's D13, for `k = 0`; log 21). -/
abbrev OutOfRange (base k : Nat) : Prop := 0 < k ∧ Config.memSize ≤ base + k - 1

/-- `CheckRange(base, k)` in front of an instruction's effect (R45): all of the effect, or
MemoryOutOfBounds at the lowest address of the block that is out of bounds. DESIGN CHOICE (the spec's
own, D12; log 21). -/
def withRange (base k : Nat) (s : State) (effect : State) : State :=
  if OutOfRange base k then raise (.memoryOutOfBounds (max base Config.memSize)) s else effect

/-! ## The random byte -/

/-- The random byte offered to this step (R142, R143): the `rnd` input if the host gives one, else a
free byte (log 10). -/
def State.rndByte (s : State) : Byte := s.env.rndIn.getD (Config.rndByte s.env.rndCount)

/-- One random byte has been used: the next free one is another (R143: "chosen anew for every step"). -/
def State.rndUsed (s : State) : State := { s with env := { s.env with rndCount := s.env.rndCount + 1 } }

end Sys2Proof.Machine
end

