-- ==== Sys2Proof/Machine/Flags.lean ====
section
/-! DEFINITION. The flag computations (10_state.md R12): carry, borrow and the shifted-out bits. The
collision flag is computed with the drawing (Machine/Display.lean, R128). -/

namespace Sys2Proof.Machine

/-- A flag as the byte written to `VF`: 1 or 0 (R12). -/
def flagByte (b : Bool) : Byte := if b then 1 else 0

/-- Carry out of an 8-bit addition: the sum exceeds 255 (42_load_alu.md R106). -/
def carryOut (a b : Byte) : Bool := decide (255 < a.toNat + b.toNat)

/-- Borrow of `a - b`: the minuend is less than the subtrahend (R107; DESIGN CHOICE, the spec's D9;
log 18). -/
def borrowOut (a b : Byte) : Bool := decide (a.toNat < b.toNat)

/-- The bit a right shift drops (R108). -/
def shiftedOutRight (a : Byte) : Bool := a.getLsbD 0

/-- The bit a left shift drops (R110). -/
def shiftedOutLeft (a : Byte) : Bool := a.getLsbD 7

/-- Result to `Vx`, then the flag to `VF`, last (R105; DESIGN CHOICE, the spec's D3; log 13). -/
def State.setResultFlag (s : State) (x : Reg) (result : Byte) (flag : Bool) : State :=
  (s.setV x result).setFlag (flagByte flag)

/-- Result to `Vx`, then 1 to `VF` on carry; without carry `VF` is not written as a flag (R105, R106;
90_conflicts.md C1; log 31). -/
def State.setResultCarry (s : State) (x : Reg) (result : Byte) (carry : Bool) : State :=
  if carry then (s.setV x result).setFlag 1 else s.setV x result

end Sys2Proof.Machine
end

