-- ==== Sys2Proof/Machine/Operands.lean ====
section
/-! DEFINITION. Operand forms (30_encoding.md R65): zero extension of immediates and registers, the
block addressed by `I`, the decimal digits of a register, the key a register names. -/

namespace Sys2Proof.Machine

/-- `zext_16(nnn)` (R65). -/
def addr12 (nnn : BitVec 12) : Word := nnn.setWidth 16

/-- `zext_16(V[x])` (R116). -/
def zextByte (b : Byte) : Word := b.setWidth 16

/-- The address in `I`, as the natural number effective addresses are (20_memory.md R44). -/
def State.base (s : State) : Nat := s.i.toNat

/-- How many registers a block instruction moves: `x + 1` (R119, R120). -/
def blockLen (x : Reg) : Nat := x.val + 1

/-- `V0` to `Vx` in order (R119). -/
def State.blockOfV (s : State) (x : Reg) : List Byte := s.v.toList.take (blockLen x)

/-- The `k` bytes `I` points at (R120, R127). -/
def State.blockAtI (s : State) (k : Nat) : List Byte := s.mem.readBytes s.base k

/-- Hundreds, tens and units of a byte, one decimal digit a byte (R118). -/
def bcdDigits (b : Byte) : List Byte :=
  [BitVec.ofNat 8 (b.toNat / 100), BitVec.ofNat 8 (b.toNat / 10 % 10), BitVec.ofNat 8 (b.toNat % 10)]

/-- The base address of glyph `b`: `FONT_BASE + b * GLYPH_LEN`, `b` used whole (R117; DESIGN CHOICE,
the spec's D25; log 26). -/
def glyphAddr (b : Byte) : Word := BitVec.ofNat 16 (Config.fontBase + b.toNat * Config.glyphLen)

/-- `is_key_pressed(v)`: all 8 bits of `v` are compared with the zero-extended code (10_state.md R20;
DESIGN CHOICE, the spec's D14; log 22). -/
def State.keyPressed (s : State) (v : Byte) : Bool :=
  match s.key with
  | some k => k.setWidth 8 == v
  | none => false

end Sys2Proof.Machine
end

