-- ==== Sys2Proof/Machine/Alu.lean ====
section
/-! DEFINITION. Register load, arithmetic, bitwise and shift instructions (42_load_alu.md). -/

namespace Sys2Proof.Machine

/-- `6xnn` LD Vx, nn (R100). -/
def execLdImm (x : Reg) (nn : Byte) (s : State) : Result := .next (s.setV x nn).advance

/-- `7xnn` ADD Vx, nn (R101): no flag. -/
def execAddImm (x : Reg) (nn : Byte) (s : State) : Result := .next (s.setV x (s.getV x + nn)).advance

/-- `8xy0` LD Vx, Vy (R102). -/
def execLdReg (x y : Reg) (s : State) : Result := .next (s.setV x (s.getV y)).advance

/-- `8xy2` AND Vx, Vy (R103): no flag. -/
def execAnd (x y : Reg) (s : State) : Result := .next (s.setV x (s.getV x &&& s.getV y)).advance

/-- `8xy3` XOR Vx, Vy (R104): no flag. -/
def execXor (x y : Reg) (s : State) : Result := .next (s.setV x (s.getV x ^^^ s.getV y)).advance

/-- `8xy4` ADD Vx, Vy (R106). -/
def execAddReg (x y : Reg) (s : State) : Result :=
  .next (s.setResultCarry x (s.getV x + s.getV y) (carryOut (s.getV x) (s.getV y))).advance

/-- `8xy5` SUB Vx, Vy (R107). -/
def execSub (x y : Reg) (s : State) : Result :=
  .next (s.setResultFlag x (s.getV x - s.getV y) (borrowOut (s.getV x) (s.getV y))).advance

/-- `8x?6` SHR Vx (R108). -/
def execShr (x : Reg) (s : State) : Result :=
  .next (s.setResultFlag x (s.getV x >>> 1) (shiftedOutRight (s.getV x))).advance

/-- `8xy7` SUBN Vx, Vy (R109). -/
def execSubn (x y : Reg) (s : State) : Result :=
  .next (s.setResultFlag x (s.getV y - s.getV x) (borrowOut (s.getV y) (s.getV x))).advance

/-- `8x?E` SHL Vx (R110). -/
def execShl (x : Reg) (s : State) : Result :=
  .next (s.setResultFlag x (s.getV x <<< 1) (shiftedOutLeft (s.getV x))).advance

end Sys2Proof.Machine
end

