-- ==== Sys2Proof/Machine/Control.lean ====
section
/-! DEFINITION. Control transfer: jump, call, return and the register skips (41_control_flow.md). -/

namespace Sys2Proof.Machine

/-- `00EE` RET (R91): pop into `PC`; an empty stack raises CallStackUnderflow (R153). -/
def execRet (s : State) : Result :=
  match s.stack with
  | [] => .next (raise .callStackUnderflow s)
  | a :: rest => .next (s.returnTo a rest)

/-- `1nnn` JP (R92). -/
def execJp (nnn : BitVec 12) (s : State) : Result := .next (s.setPc (addr12 nnn))

/-- `2nnn` CALL (R93): push `PC + 2`; a full stack raises CallStackOverflow (R154). -/
def execCall (nnn : BitVec 12) (s : State) : Result :=
  if s.sp = Config.stackDepth then .next (raise .callStackOverflow s)
  else .next (s.callTo (addr12 nnn))

/-- `Bnnn` JP V0 (R94). -/
def execJpV0 (nnn : BitVec 12) (s : State) : Result :=
  .next (s.setPc (zextByte (s.getV 0) + addr12 nnn))

/-- `3xnn` SE Vx, nn (R95). -/
def execSeImm (x : Reg) (nn : Byte) (s : State) : Result := .next (s.skipIf (s.getV x == nn))

/-- `4xnn` SNE Vx, nn (R96). -/
def execSneImm (x : Reg) (nn : Byte) (s : State) : Result := .next (s.skipIf (s.getV x != nn))

/-- `5xy?` SE Vx, Vy (R97). -/
def execSeReg (x y : Reg) (s : State) : Result := .next (s.skipIf (s.getV x == s.getV y))

/-- `9xy?` SNE Vx, Vy (R98). -/
def execSneReg (x y : Reg) (s : State) : Result := .next (s.skipIf (s.getV x != s.getV y))

end Sys2Proof.Machine
end

