-- ==== Sys2Proof/Machine/Device.lean ====
section
/-! DEFINITION. Keyboard, timer and random-number instructions (45_keyboard_timer_random.md). -/

namespace Sys2Proof.Machine

/-- `Ex9E` SKP Vx (R136). -/
def execSkp (x : Reg) (s : State) : Result := .next (s.skipIf (s.keyPressed (s.getV x)))

/-- `ExA1` SKNP Vx (R137). -/
def execSknp (x : Reg) (s : State) : Result := .next (s.skipIf (!s.keyPressed (s.getV x)))

/-- `Fx0A` LD Vx, K (R138): with no key observed nothing changes, `PC` included. Level-sensitive
(DESIGN CHOICE, the spec's D26; log 27). -/
def execLdVxK (x : Reg) (s : State) : Result :=
  match s.key with
  | some k => .next (s.setV x (k.setWidth 8)).advance
  | none => .next s

/-- `Fx07` LD Vx, DT (R139). -/
def execLdVxDt (x : Reg) (s : State) : Result := .next (s.setV x s.dt).advance

/-- `Fx15` LD DT, Vx (R140). -/
def execLdDtVx (x : Reg) (s : State) : Result := .next (s.setDt (s.getV x)).advance

/-- `Fx18` LD ST, Vx (R141). -/
def execLdStVx (x : Reg) (s : State) : Result := .next (s.setSt (s.getV x)).advance

/-- `Cxnn` RND Vx, nn (R142). -/
def execRnd (x : Reg) (nn : Byte) (s : State) : Result :=
  .next (s.rndUsed.setV x (s.rndByte &&& nn)).advance

end Sys2Proof.Machine
end

