-- ==== Sys2Proof/Machine/Display.lean ====
section
/-! DEFINITION. Display instructions: clear, and sprite draw with collision (44_display.md). -/

namespace Sys2Proof.Machine

/-- One pixel of `DrawByte` (R127): bit `7 - k` of the row byte, `k` columns right of `px`. A 1 bit flips
its pixel, and collides when the pixel was 1. -/
def drawBit (b : Byte) (px py : Nat) (acc : FrameBuffer × Bool) (k : Nat) : FrameBuffer × Bool :=
  if b.getLsbD (7 - k) then
    (acc.1.flip (wrapX (px + k)) (wrapY py), acc.2 || acc.1.get (wrapX (px + k)) (wrapY py))
  else acc

/-- `DrawByte(b, px, py)` (R127, R134): one row, and whether a collision occurred on it. -/
def drawByte (b : Byte) (px py : Nat) (fb : FrameBuffer) : FrameBuffer × Bool :=
  (List.range 8).foldl (drawBit b px py) (fb, false)

/-- The rows of a sprite, the first at row `py`, and the logical or of their collisions (R127, R128). -/
def drawSprite (px : Nat) : List Byte → Nat → FrameBuffer → FrameBuffer × Bool
  | [], _, fb => (fb, false)
  | b :: rows, py, fb =>
    let row := drawByte b px py fb
    let rest := drawSprite px rows (py + 1) row.1
    (rest.1, row.2 || rest.2)

/-- `00E0` CLS (R126). -/
def execCls (s : State) : Result := .next (s.setFb FrameBuffer.blank).advance

/-- `Dxyn` DRW Vx, Vy, n (R127 to R132): coordinates are read before `VF` is written. -/
def execDrw (x y : Reg) (n : Nat) (s : State) : Result :=
  let drawn := drawSprite (s.getV x).toNat (s.blockAtI n) (s.getV y).toNat s.fb
  .next (withRange s.base n s ((s.setFb drawn.1).setFlag (flagByte drawn.2)).advance)

end Sys2Proof.Machine
end

