-- ==== Sys2Proof/Machine/IndexMem.lean ====
section
/-! DEFINITION. Index register and memory instructions (43_index_memory.md). -/

namespace Sys2Proof.Machine

/-- `Annn` LD I, nnn (R115). -/
def execLdI (nnn : BitVec 12) (s : State) : Result := .next (s.setI (addr12 nnn)).advance

/-- `Fx1E` ADD I, Vx (R116): wraps modulo 65536, no flag (DESIGN CHOICE, the spec's D10; log 19). -/
def execAddIVx (x : Reg) (s : State) : Result := .next (s.setI (s.i + zextByte (s.getV x))).advance

/-- `Fx29` LD F, Vx (R117). -/
def execLdFVx (x : Reg) (s : State) : Result := .next (s.setI (glyphAddr (s.getV x))).advance

/-- `Fx33` LD B, Vx (R118). -/
def execLdBVx (x : Reg) (s : State) : Result :=
  .next (withRange s.base 3 s (s.storeBytes s.base (bcdDigits (s.getV x))).advance)

/-- `Fx55` LD [I], Vx (R119): `I` unchanged (R121; DESIGN CHOICE, the spec's D5, D6; log 14, 15). -/
def execLdMemVx (x : Reg) (s : State) : Result :=
  .next (withRange s.base (blockLen x) s (s.storeBytes s.base (s.blockOfV x)).advance)

/-- `Fx65` LD Vx, [I] (R120): `I` unchanged (R121; DESIGN CHOICE, the spec's D5; log 14). -/
def execLdVxMem (x : Reg) (s : State) : Result :=
  .next (withRange s.base (blockLen x) s (s.loadV (s.blockAtI (blockLen x))).advance)

end Sys2Proof.Machine
end

