-- ==== Sys2Proof/Machine/Events.lean ====
section
/-! DEFINITION. The events of 00_scope.md R6: the CPU's step (40_step_fetch_decode.md R80) and what the host
does to the machine (70_reset_and_hazards.md R170, R173; 60_exceptions.md R160;
45_keyboard_timer_random.md R135; 44_display.md R133). -/

namespace Sys2Proof.Machine

/-! ## The CPU's step -/

/-- The time in which `load` is legal is over (R173). -/
def State.leaveBoot (s : State) : State := { s with env := { s.env with booting := false } }

/-- Fetch, decode, dispatch, execute (R80 to R83). A fetch out of bounds raises MemoryOutOfBounds, a
word of no row raises UnsupportedInstruction, in that order (R157). -/
def runCycle (s : State) : Result :=
  match fetch s with
  | .error a => .next (raise (.memoryOutOfBounds a) s)
  | .ok w =>
    match decodeWord w with
    | none => .next (raise .unsupportedInstruction s)
    | some i => exec i s

/-- The `step` event (R80): nothing while `HALT` is 1 (R156), else one instruction. -/
def cpuStep (s : State) : Result := if s.halt then .next s else runCycle s.leaveBoot

/-! ## The host's events -/

/-- `reset` (R170): every element of R10 at its reset value. What the host does after it stays as it
was, and free bytes and events stay fresh (log 32). -/
def resetEvent (s : State) : State :=
  { State.reset with env := { s.env with booting := true, rndIn := none } }

/-- `load(image)` (R173): the image copied to the load address; an image that is too long copies
nothing and raises MemoryOutOfBounds(MEM_SIZE), with no instruction word (DESIGN CHOICE, the spec's
D23; log 12). Outside its time it has no meaning (U20; log 11). -/
def loadEvent (image : List Byte) (s : State) : Result :=
  if s.env.booting then
    if Config.memSize - Config.loadAddr < image.length then
      .next (raiseWith (.memoryOutOfBounds Config.memSize) none s.leaveBoot)
    else .next (s.leaveBoot.storeBytes Config.loadAddr image)
  else .refused .loadOutsideBoot

/-- `tick` (R160): the delay timer counts down and stops at 0; the sound timer is inert (R161). DESIGN
CHOICE (the spec's own, D16; log 23). -/
def tickEvent (s : State) : State := s.setDt (if s.dt = 0 then 0 else s.dt - 1)

/-- `set_key(k)` (R135): replaces the whole keyboard state. -/
def setKeyEvent (k : Option KeyCode) (s : State) : State := s.setKey k

/-- What `read_fb` shows the host: the cells in linear order (R133, R22). -/
def State.getBuffer (s : State) : List Bool := s.fb.cells

/-- The `rnd` input is driven for one step (R26, R80). -/
def State.offerRnd (s : State) (rnd : Option Byte) : State := { s with env := { s.env with rndIn := rnd } }

/-- An outcome with its next state changed. -/
def mapNext (f : State → State) : Result → Result
  | .next s => .next (f s)
  | .fault r => .fault r
  | .refused r => .refused r

/-- The `step(rnd)` event with the byte the host gives it (R80). -/
def stepEvent (rnd : Byte) (s : State) : Result :=
  mapNext (·.offerRnd none) (cpuStep (s.offerRnd (some rnd)))

/-- One event (R6), atomic. -/
def deliver (e : Event) (s : State) : Result :=
  match e with
  | .reset => .next (resetEvent s)
  | .load image => loadEvent image s
  | .step rnd => stepEvent rnd s
  | .tick => .next (tickEvent s)
  | .setKey k => .next (setKeyEvent k s)
  | .readFb => .next s

/-- The host's queue replaced. -/
def State.withSchedule (s : State) (es : List Event) : State := { s with env := { s.env with schedule := es } }

/-! ## The host's sequence of events -/

/-- The event the host causes next: the first it has queued, or the first of what follows; `none` is the
model's own `step` event with a free random byte (R187; log 9, 33). -/
def Env.pending (e : Env) : Option Event :=
  match e.schedule, e.tail with
  | ev :: _, _ => some ev
  | [], .steps => none
  | [], .cycle first _ => some first
  | [], .free => some (Config.hostEvent e.eventCount)

/-- The host's side with that event taken: off the queue, or the rest of a cycle queued, or one free event
more counted (log 9, 33). -/
def Env.take (e : Env) : Env :=
  match e.schedule, e.tail with
  | _ :: rest, _ => { e with schedule := rest }
  | [], .steps => e
  | [], .cycle _ others => { e with schedule := others }
  | [], .free => { e with eventCount := e.eventCount + 1 }

/-- The event the host causes next. -/
def State.pendingEvent (s : State) : Option Event := s.env.pending

/-- The state with that event taken from the host's sequence. -/
def State.takeEvent (s : State) : State := { s with env := s.env.take }

/-- The next event: the host's, or a `step` event with a free random byte (log 9). -/
def nextEvent (s : State) : Result :=
  match s.pendingEvent with
  | none => cpuStep s
  | some e => deliver e s.takeEvent

/-! ## Placing an instruction -/

/-- The address the next instruction is fetched from once one has been placed there: `PC`, or the load
address if no word can be fetched at `PC` (log 28). -/
def placeAddr (s : State) : Word :=
  if s.pc.toNat + 1 < Config.memSize then s.pc else BitVec.ofNat 16 Config.loadAddr

/-- `s` with bytes in memory where the next step fetches, and with what the fetch takes besides: no
event but the CPU's steps, `HALT` 0, a `PC` two bytes can be fetched from, and the `load` this stands for done (log 28). -/
def placeBytes (s : State) (bs : List Byte) : State :=
  { s with
    pc := placeAddr s
    mem := s.mem.writeBytes (placeAddr s).toNat bs
    halt := false
    env := { s.env with schedule := [], tail := .steps, booting := false } }

end Sys2Proof.Machine
end

