-- ==== Sys2Proof/Machine/Step.lean ====
section
/-! DEFINITION. One step of the model: the next event of 00_scope.md R6 (Machine/Events.lean). -/

namespace Sys2Proof.Machine

/-- One step: the host's next event, or, where it has none, the CPU's `step` event. -/
def step (s : State) : Host.Outcome State Fault Refusal := nextEvent s

/-- `s` with the instruction that spec/opcode_table.json numbers `w` placed where the next step
fetches; every instruction is one word (R60). -/
def State.withFetchWord (s : State) (nbits w : Nat) : State := placeBytes s (bytesOfWord (tableWord nbits w))

end Sys2Proof.Machine
end

