-- ==== Sys2Proof/Safety.lean ====
section
/-! DEFINITION. What claims are stated in: the parts of the state and frames over them, and the
invariant that every step keeps. -/

namespace Sys2Proof.Machine

/-- A part of the state, as fine as an instruction can touch it: a register, one byte of memory, one
cell of the display. -/
inductive Part where
  | v (r : Reg)
  | i
  | pc
  | stack
  | dt
  | st
  | key
  | mem (a : Nat)
  | cell (x : Fin Config.width) (y : Fin Config.height)
  | halt
  | err
  | rndCount
  | rndIn
  | booting
  | schedule
  | tail
  | eventCount
  deriving DecidableEq, Repr

/-- The part has the same value in both states. Memory is compared through the read of one byte. -/
def Part.Same (s t : State) : Part → Prop
  | .v r => t.getV r = s.getV r
  | .i => t.i = s.i
  | .pc => t.pc = s.pc
  | .stack => t.stack = s.stack
  | .dt => t.dt = s.dt
  | .st => t.st = s.st
  | .key => t.key = s.key
  | .mem a => t.readMem a = s.readMem a
  | .cell x y => t.fb.get x y = s.fb.get x y
  | .halt => t.halt = s.halt
  | .err => t.err = s.err
  | .rndCount => t.env.rndCount = s.env.rndCount
  | .rndIn => t.env.rndIn = s.env.rndIn
  | .booting => t.env.booting = s.env.booting
  | .schedule => t.env.schedule = s.env.schedule
  | .tail => t.env.tail = s.env.tail
  | .eventCount => t.env.eventCount = s.env.eventCount

/-- Every part outside `touched` is as before. -/
def Frame (touched : Set Part) (s t : State) : Prop := ∀ p, p ∉ touched → p.Same s t

/-- `HALT` and `ERR` agree (10_state.md R23, R24): the record is clear while the machine runs, names a
condition once it has halted, and its conditional fields are 0 where R24 says so. -/
structure ErrOk (s : State) : Prop where
  clear : s.halt = false → s.err = ErrRecord.clear
  named : s.halt = true → s.err.code ≠ .none
  noWord : s.err.wordValid = false → s.err.word = 0
  noAddr : s.err.code ≠ .memoryOutOfBounds → s.err.addr = 0

/-- `PC` and the return addresses stay in the range R15 gives: the largest value an instruction can
write to `PC` is 0xFF + 0xFFF = 4350, and a pushed `PC + 2` is at most `MEM_SIZE`. -/
structure PcOk (s : State) : Prop where
  pc : s.pc.toNat ≤ 4350
  stack : ∀ a ∈ s.stack, a.toNat ≤ Config.memSize

/-- The invariant of the machine: memory in canonical form, call stack within its bound (R16), `PC` and
return addresses in range (R15), `HALT` and `ERR` in agreement, no `rnd` input between events, and a
halted machine past its boot. -/
structure Inv (s : State) : Prop where
  mem : s.mem.wf = true
  depth : s.sp ≤ Config.stackDepth
  range : PcOk s
  error : ErrOk s
  rnd : s.env.rndIn = none
  booted : s.halt = true → s.env.booting = false

/-- A safe state: the machine runs, so no fatal condition has been raised (R23). -/
abbrev Running (s : State) : Prop := s.halt = false

/-- The pixel `(c, r)` lies under a set bit of the sprite that `Dxyn` draws: bit `7 - k` of row `j`, `k`
columns right of `Vx` and `j` rows below `Vy`, wrapped (44_display.md R127, R129). -/
def SpriteLit (s : State) (x y : Reg) (n : Nat) (c : Fin Config.width) (r : Fin Config.height) : Prop :=
  ∃ j k : Nat, j < n ∧ k < 8 ∧ (s.readMem (s.i.toNat + j)).getLsbD (7 - k) = true ∧
    c.val = ((s.getV x).toNat + k) % 64 ∧ r.val = ((s.getV y).toNat + j) % 32

/-- The byte at address `b` after `Fx55` ran at `s`: the register stored there, or the old byte outside
the block (43_index_memory.md R119). -/
def ByteAfterBlockStore (s : State) (x : Reg) (b : Nat) (v : Byte) : Prop :=
  (∃ r : Reg, r ≤ x ∧ b = s.i.toNat + r.val ∧ v = s.getV r) ∨
    ((b < s.i.toNat ∨ s.i.toNat + x.val < b) ∧ v = s.readMem b)

/-- The byte at address `b` after `Fx33` ran at `s`: a decimal digit of `Vx`, or the old byte outside the
three (43_index_memory.md R118). -/
def ByteAfterDigitStore (s : State) (x : Reg) (b : Nat) (v : Byte) : Prop :=
  (b = s.i.toNat ∧ v.toNat = (s.getV x).toNat / 100) ∨
    (b = s.i.toNat + 1 ∧ v.toNat = (s.getV x).toNat / 10 % 10) ∨
    (b = s.i.toNat + 2 ∧ v.toNat = (s.getV x).toNat % 10) ∨
    ((b < s.i.toNat ∨ s.i.toNat + 2 < b) ∧ v = s.readMem b)

/-- The instruction, at this state, raises the condition: the table of 60_exceptions.md R159 with the
`when` column of R150. -/
def Raises (s : State) : Instr → Prop
  | .ret => s.stack = []
  | .call _ => s.sp = 16
  | .drw _ _ n => 0 < n ∧ 4096 ≤ s.i.toNat + n - 1
  | .ldBVx _ => 4096 ≤ s.i.toNat + 2
  | .ldMemVx x => 4096 ≤ s.i.toNat + x.val
  | .ldVxMem x => 4096 ≤ s.i.toNat + x.val
  | .cls | .jp _ | .seImm _ _ | .sneImm _ _ | .seReg _ _ | .ldImm _ _ | .addImm _ _ | .ldReg _ _
  | .and _ _ | .xor _ _ | .addReg _ _ | .sub _ _ | .shr _ | .subn _ _ | .shl _ | .sneReg _ _
  | .ldI _ | .jpV0 _ | .rnd _ _ | .skp _ | .sknp _ | .ldVxDt _ | .ldVxK _ | .ldDtVx _ | .ldStVx _
  | .addIVx _ | .ldFVx _ => False

/-- The parts an instruction may write (R86, R90, R12, R13 and the instruction's own rule), `HALT` and
`ERR` apart. -/
def Writes (s : State) : Instr → Set Part
  | .cls => {p | p = .pc ∨ ∃ c r, p = .cell c r}
  | .ret => {.pc, .stack}
  | .call _ => {.pc, .stack}
  | .jp _ | .jpV0 _ | .seImm _ _ | .sneImm _ _ | .seReg _ _ | .sneReg _ _ | .skp _ | .sknp _ => {.pc}
  | .ldImm x _ | .addImm x _ | .ldReg x _ | .and x _ | .xor x _ | .ldVxDt x | .ldVxK x => {.pc, .v x}
  | .addReg x _ | .sub x _ | .subn x _ | .shr x | .shl x => {.pc, .v x, .v VF}
  | .ldI _ | .addIVx _ | .ldFVx _ => {.pc, .i}
  | .rnd x _ => {.pc, .v x, .rndCount}
  | .drw _ _ _ => {p | p = .pc ∨ p = .v VF ∨ ∃ c r, p = .cell c r}
  | .ldDtVx _ => {.pc, .dt}
  | .ldStVx _ => {.pc, .st}
  | .ldBVx _ => {p | p = .pc ∨ ∃ k, k < 3 ∧ p = .mem (s.i.toNat + k)}
  | .ldMemVx x => {p | p = .pc ∨ ∃ k, k ≤ x.val ∧ p = .mem (s.i.toNat + k)}
  | .ldVxMem x => {p | p = .pc ∨ ∃ r : Reg, r ≤ x ∧ p = .v r}

end Sys2Proof.Machine
end

