-- ==== Sys2Proof/Certificates/Slice0/Obligations.lean ====
section
/-! DEFINITION. The statements for the provers: what the rules of spec/ say the instructions, the step, the
fatal conditions and the host's events do. -/

section

open Sys2Proof Sys2Proof.Machine

/-! ## Encoding and decoding -/

/-- Every well-formed instruction, with every operand at every value its field admits, is what the
decoder reads back from its word and from its bytes. The encoder puts 0 in the unread nibbles, which is
the spec's own decision D8 (log 16). -/
def Obligations.DecodeOfEncodeIsTheInstruction : Prop :=
  ∀ i : Instr, i.WellFormed →
    decodeWord (encode i) = some i ∧
      ∀ rest : List Byte, decodeBytes (encodeBytes i ++ rest) = .ok (i, rest)

/-- A word that decodes gives a well-formed instruction, and encoding it gives back every bit of the
word that the dispatcher or the instruction reads; the unread nibble comes back 0 (30_encoding.md R68;
the spec's own decision D8, log 16). -/
def Obligations.EncodeOfDecodedWordKeepsEveryReadBit : Prop :=
  ∀ (w : Word) (i : Instr), decodeWord w = some i → i.WellFormed ∧ encode i = w &&& i.readMask

/-- The decoder, written from the dispatch procedure R83, agrees with the opcode map of R67: a word
matches a row's mask and match value exactly when it decodes to that row's instruction. (The row of
`Fx55` rests on the spec's decision D6, log 15.) -/
def Obligations.DecoderAgreesWithOpcodeMap : Prop :=
  ∀ (w : Word) (r : OpcodeRow), r ∈ opcodeMap →
    (w &&& r.mask = r.value ↔ ∃ i, decodeWord w = some i ∧ i.mnemonic = r.mnemonic)

/-- The unsupported words, in full (30_encoding.md R71; the spec's own decision D7, log 17). -/
def Obligations.UnsupportedWordsAreExactlyThese : Prop :=
  ∀ w : Word, decodeWord w = none ↔
    (w.toNat / 4096 = 0x0 ∧ w.toNat % 256 ≠ 0xE0 ∧ w.toNat % 256 ≠ 0xEE) ∨
    (w.toNat / 4096 = 0x8 ∧ w.toNat % 16 ∈ [0x1, 0x8, 0x9, 0xA, 0xB, 0xC, 0xD, 0xF]) ∨
    (w.toNat / 4096 = 0xE ∧ w.toNat % 256 ≠ 0x9E ∧ w.toNat % 256 ≠ 0xA1) ∨
    (w.toNat / 4096 = 0xF ∧
      w.toNat % 256 ∉ [0x07, 0x0A, 0x15, 0x18, 0x1E, 0x29, 0x33, 0x55, 0x65])

/-- The fields of every word by the computations of R62, and the word recovered from them (R63). -/
def Obligations.DecoderFieldsOfEveryWord : Prop :=
  ∀ w : Word,
    ((fieldsOf w).op.setWidth 16 = (w >>> 12) &&& 0xF ∧
      (fieldsOf w).nnn.setWidth 16 = w &&& 0x0FFF ∧
      (fieldsOf w).nn.setWidth 16 = w &&& 0x00FF ∧
      (fieldsOf w).n.setWidth 16 = w &&& 0x000F ∧
      (fieldsOf w).x.setWidth 16 = (w >>> 8) &&& 0xF ∧
      (fieldsOf w).y.setWidth 16 = (w >>> 4) &&& 0xF) ∧
    w = (fieldsOf w).op ++ (fieldsOf w).nnn ∧
    w = (fieldsOf w).op ++ (fieldsOf w).x ++ (fieldsOf w).y ++ (fieldsOf w).n ∧
    w = (fieldsOf w).op ++ (fieldsOf w).x ++ (fieldsOf w).nn

/-- Which instruction a word is depends on `(op, nn, n)` alone: two words that agree there are the same
instruction, or both none (R66; that the other nibbles are not examined is the spec's decision D8,
log 16). -/
def Obligations.DispatchReadsOnlyItsKeys : Prop :=
  ∀ w w' : Word, (fieldsOf w).op = (fieldsOf w').op → (fieldsOf w).nn = (fieldsOf w').nn →
    (decodeWord w).map Instr.mnemonic = (decodeWord w').map Instr.mnemonic

/-- The worked example of R64, and the words of 95_test_vectors.md E4, E5, E7, E9, E10 and E12. That 0x0AE0
and 0x8126 decode with a non-zero unread nibble is the spec's decision D8 (log 16), that 0x8121 does not is
D7 (log 17), that 0xF155 does is D6 (log 15). -/
def Obligations.SampleWordsDecode : Prop :=
  fieldsOf 0x1234 = ⟨0x1, 0x2, 0x3, 0x4, 0x34, 0x234⟩ ∧
  decodeWord 0b0001001000110100 = some (.jp 0x234) ∧
  decodeWord 0b1000101010110100 = some (.addReg 0xA 0xB) ∧
  decodeWord 0b1101000100100101 = some (.drw 1 2 5) ∧
  decodeWord 0b0000101011100000 = some .cls ∧
  decodeWord 0b1000000100100110 = some (.shr 1) ∧
  decodeWord 0b1000000100100001 = none ∧
  decodeWord 0b1111000101010101 = some (.ldMemVx 1)

/-! ## The step -/

/-- When the machine runs and the two bytes at `PC` decode to an instruction, a step is that
instruction's `exec` at that state (with the time for `load` over). Where the host has no event the step is
the model's own free `step` event; the host's `step(rnd)` event runs `exec` with that byte offered
(log 9, 10). -/
def Obligations.StepRunsTheDecodedInstruction : Prop :=
  ∀ (s : State) (i : Instr), s.halt = false → s.pc.toNat + 1 < 4096 →
    decodeBytes [s.readMem s.pc.toNat, s.readMem (s.pc.toNat + 1)] = .ok (i, []) →
    (s.pendingEvent = none → step s = exec i s.leaveBoot) ∧
    (∀ rnd, s.pendingEvent = some (.step rnd) →
      step s = mapNext (·.offerRnd none) (exec i (s.takeEvent.offerRnd (some rnd)).leaveBoot))

/-- A fetch that reaches past memory raises MemoryOutOfBounds at the lower of the two addresses that is
out of bounds, with no instruction word (R81, R157; the spec's decisions D17, D22, log 6, 25): for the model's
own free step and for the host's `step(rnd)` (log 9). -/
def Obligations.FetchOutOfBoundsRaises : Prop :=
  ∀ s : State, s.halt = false → 4096 ≤ s.pc.toNat + 1 →
    (s.pendingEvent = none → step s = .next { s.leaveBoot with
      halt := true
      err := ⟨.memoryOutOfBounds, s.pc, false, 0, BitVec.ofNat 17 (max s.pc.toNat 4096)⟩ }) ∧
    (∀ rnd, s.pendingEvent = some (.step rnd) →
      step s = .next { (s.takeEvent.offerRnd none).leaveBoot with
        halt := true
        err := ⟨.memoryOutOfBounds, s.pc, false, 0, BitVec.ofNat 17 (max s.pc.toNat 4096)⟩ })

/-- A word of no row raises UnsupportedInstruction with the PC and the raw word, high byte first
(R151; the spec's decision D17, log 6): for the model's own free step and for the host's `step(rnd)` (log 9). -/
def Obligations.UnsupportedWordRaises : Prop :=
  ∀ s : State, s.halt = false → s.pc.toNat + 1 < 4096 →
    decodeWord (s.readMem s.pc.toNat ++ s.readMem (s.pc.toNat + 1)) = none →
    (s.pendingEvent = none → step s = .next { s.leaveBoot with
      halt := true
      err := ⟨.unsupportedInstruction, s.pc, true,
        s.readMem s.pc.toNat ++ s.readMem (s.pc.toNat + 1), 0⟩ }) ∧
    (∀ rnd, s.pendingEvent = some (.step rnd) →
      step s = .next { (s.takeEvent.offerRnd none).leaveBoot with
        halt := true
        err := ⟨.unsupportedInstruction, s.pc, true,
          s.readMem s.pc.toNat ++ s.readMem (s.pc.toNat + 1), 0⟩ })

/-- While `HALT` is 1 a `step` event changes nothing (R156; the spec's decision D17, log 7): the model's own
free step, and the host's `step(rnd)`, which only leaves the host's sequence (log 9). -/
def Obligations.HaltedStepChangesNothing : Prop :=
  ∀ s : State, s.halt = true →
    (s.pendingEvent = none → step s = .next s) ∧
    (∀ rnd, s.env.rndIn = none → s.pendingEvent = some (.step rnd) → step s = .next s.takeEvent)

/-- Every step answers a next state, but for a `load` event outside its time; and such a `load` is
refused, whatever its image: it has no meaning (R173; U20; the model's refusal, log 11). -/
def Obligations.EveryStepAnswersButForALateLoad : Prop :=
  (∀ s : State, (∃ t, step s = .next t) ∨
    (step s = .refused .loadOutsideBoot ∧ s.env.booting = false ∧
      ∃ image, s.pendingEvent = some (.load image))) ∧
  ∀ (s : State) (image : List Byte), s.pendingEvent = some (.load image) → s.env.booting = false →
    step s = .refused .loadOutsideBoot

/-- A word placed where the next step fetches is the instruction the next step runs. How a program is
placed is the model's own convention (log 28). -/
def Obligations.PlacedWordIsTheNextInstruction : Prop :=
  ∀ (s : State) (w : Word) (i : Instr), decodeWord w = some i →
    step (s.withFetchWord 16 w.toNat) = exec i (s.withFetchWord 16 w.toNat)

/-! ## Fatal conditions -/

/-- Every fatal condition is precise (R85, R155; the spec's decision D17, log 6, 8). When an instruction halts a
running machine, nothing changed but `HALT` and `ERR`, and `ERR` holds the instruction's own address and the
word at it. When a step does, be it by an instruction, an unsupported word, a fetch out of bounds or a `load`
that is too long (D23, log 12), nothing changed but `HALT`, `ERR` and the host's side: its event is taken and
the time for `load` is over (log 9, 11). `ERR` holds `PC`, and the word at it exactly when the event is a step
that could fetch one. No random byte is offered between events: an invariant of the model (log 10). -/
def Obligations.FatalConditionsArePrecise : Prop :=
  (∀ (i : Instr) (s t : State), s.halt = false → exec i s = .next t → t.halt = true →
    t = { s with halt := true, err := t.err } ∧ t.err.code ≠ .none ∧ t.err.pc = s.pc ∧
    (s.pc.toNat + 1 < 4096 → t.err.wordValid = true ∧
      t.err.word = s.readMem s.pc.toNat ++ s.readMem (s.pc.toNat + 1))) ∧
  ∀ s t : State, s.halt = false → s.env.rndIn = none → step s = .next t → t.halt = true →
    t = { s.takeEvent.leaveBoot with halt := true, err := t.err } ∧ t.err.code ≠ .none ∧
    t.err.pc = s.pc ∧
    (t.err.wordValid = true ↔
      s.pc.toNat + 1 < 4096 ∧ ∀ image, s.pendingEvent ≠ some (.load image)) ∧
    t.err.word = (if t.err.wordValid then s.readMem s.pc.toNat ++ s.readMem (s.pc.toNat + 1) else 0)

/-- Which instruction raises a condition, and exactly when: the table of R159 (derived there), with the
conditions of R150. The bounds 16 and 4096 and the check of the whole block first are the spec's decisions
D1, D12 (log 1, 21). -/
def Obligations.ExactlyTheListedInstructionsRaise : Prop :=
  ∀ (i : Instr) (s : State), s.halt = false →
    ∃ t, exec i s = .next t ∧ (t.halt = true ↔ Raises s i)

/-- `00EE` with an empty stack and `2nnn` with a full one (R153, R154): the condition is recorded, with
the word at `PC`, and nothing else changes (the spec's decision D17, log 6). -/
def Obligations.StackConditionsAreRecorded : Prop :=
  (∀ s : State, s.stack = [] → s.pc.toNat + 1 < 4096 →
    exec .ret s = .next { s with
      halt := true
      err := ⟨.callStackUnderflow, s.pc, true,
        s.readMem s.pc.toNat ++ s.readMem (s.pc.toNat + 1), 0⟩ }) ∧
  (∀ (s : State) (nnn : BitVec 12), s.stack.length = 16 → s.pc.toNat + 1 < 4096 →
    exec (.call nnn) s = .next { s with
      halt := true
      err := ⟨.callStackOverflow, s.pc, true,
        s.readMem s.pc.toNat ++ s.readMem (s.pc.toNat + 1), 0⟩ })

/-- A block access of `Dxyn`, `Fx33`, `Fx55` or `Fx65` that reaches past memory raises MemoryOutOfBounds at
`max(I, MEM_SIZE)` before anything moves (R45, R122, R152; the spec's decisions D12, D17, log 6, 21). -/
def Obligations.BlockOutOfBoundsRaisesBeforeAnyChange : Prop :=
  ∀ (i : Instr) (k : Nat) (s : State), s.pc.toNat + 1 < 4096 → 0 < k → 4096 ≤ s.i.toNat + k - 1 →
    ((∃ x y, i = .drw x y k) ∨ ((∃ x, i = .ldBVx x) ∧ k = 3) ∨
      (∃ x : Reg, (i = .ldMemVx x ∨ i = .ldVxMem x) ∧ k = x.val + 1)) →
    exec i s = .next { s with
      halt := true
      err := ⟨.memoryOutOfBounds, s.pc, true,
        s.readMem s.pc.toNat ++ s.readMem (s.pc.toNat + 1), BitVec.ofNat 17 (max s.i.toNat 4096)⟩ }

/-! ## Control transfer -/

/-- `1nnn` (R92): encoding, effect, no flag, no exception. -/
def Obligations.JumpSetsThePc : Prop :=
  (∀ w : Word, w &&& 0xF000 = 0x1000 ↔ decodeWord w = some (.jp (fieldsOf w).nnn)) ∧
  ∀ (nnn : BitVec 12) (s : State), ∃ t, exec (.jp nnn) s = .next t ∧
    t.pc.toNat = nnn.toNat ∧ Frame {.pc} s t

/-- `Bnnn` (R94): encoding, `PC = V0 + nnn` with no reduction, no flag, no exception. -/
def Obligations.JumpWithOffsetAddsV0 : Prop :=
  (∀ w : Word, w &&& 0xF000 = 0xB000 ↔ decodeWord w = some (.jpV0 (fieldsOf w).nnn)) ∧
  ∀ (nnn : BitVec 12) (s : State), ∃ t, exec (.jpV0 nnn) s = .next t ∧
    t.pc.toNat = ((s.getV 0).toNat + nnn.toNat) % 65536 ∧ Frame {.pc} s t

/-- `2nnn` below the bound of the stack (R93): the address of the instruction after the call is the most
recent entry and the old ones stay. The bound 16 is the spec's decision D1 (log 1). -/
def Obligations.CallPushesTheReturnAddress : Prop :=
  ∀ (nnn : BitVec 12) (s : State), s.sp < 16 → ∃ t, exec (.call nnn) s = .next t ∧
    t.pc.toNat = nnn.toNat ∧ t.sp = s.sp + 1 ∧
    (∃ a : Word, a.toNat = (s.pc.toNat + 2) % 65536 ∧ t.slot s.sp = some a) ∧
    (∀ k, k < s.sp → t.slot k = s.slot k) ∧ Frame {.pc, .stack} s t

/-- `00EE` with a non-empty stack (R91): "PC becomes the most recently pushed value and that frame is
removed". That `0?EE` decodes to it whatever the `x` nibble is the spec's decision D8 (log 16). -/
def Obligations.ReturnPopsTheMostRecentAddress : Prop :=
  (∀ w : Word, w &&& 0xF0FF = 0x00EE ↔ decodeWord w = some .ret) ∧
  ∀ s : State, 0 < s.sp → ∃ t, exec .ret s = .next t ∧
    s.slot (s.sp - 1) = some t.pc ∧ t.sp + 1 = s.sp ∧ (∀ k, k < t.sp → t.slot k = s.slot k) ∧
    Frame {.pc, .stack} s t

/-- A call and the return right after it bring back the stack, with `PC` after the call (R93, R91, R99). The
bound 16 is the spec's decision D1 (log 1). -/
def Obligations.ReturnUndoesCall : Prop :=
  ∀ (nnn : BitVec 12) (s : State), s.sp < 16 → ∃ t u, exec (.call nnn) s = .next t ∧
    exec .ret t = .next u ∧ u.pc = s.pc + 2 ∧ u.stack = s.stack ∧ Frame {.pc} s u

/-- `3xnn` and `4xnn` (R95, R96): encodings, skip by 4 or 2 on all 8 bits, no flag, no exception. -/
def Obligations.ImmediateSkips : Prop :=
  (∀ w : Word, w &&& 0xF000 = 0x3000 ↔
    decodeWord w = some (.seImm (regOf (fieldsOf w).x) (fieldsOf w).nn)) ∧
  (∀ w : Word, w &&& 0xF000 = 0x4000 ↔
    decodeWord w = some (.sneImm (regOf (fieldsOf w).x) (fieldsOf w).nn)) ∧
  ∀ (x : Reg) (nn : Byte) (s : State),
    (∃ t, exec (.seImm x nn) s = .next t ∧
      t.pc.toNat = (s.pc.toNat + if (s.getV x).toNat = nn.toNat then 4 else 2) % 65536 ∧
      Frame {.pc} s t) ∧
    (∃ t, exec (.sneImm x nn) s = .next t ∧
      t.pc.toNat = (s.pc.toNat + if (s.getV x).toNat = nn.toNat then 2 else 4) % 65536 ∧
      Frame {.pc} s t)

/-- `5xy?` and `9xy?` (R97, R98). That they decode whatever the `n` nibble is the spec's decision D8
(log 16). -/
def Obligations.RegisterSkips : Prop :=
  (∀ w : Word, w &&& 0xF000 = 0x5000 ↔
    decodeWord w = some (.seReg (regOf (fieldsOf w).x) (regOf (fieldsOf w).y))) ∧
  (∀ w : Word, w &&& 0xF000 = 0x9000 ↔
    decodeWord w = some (.sneReg (regOf (fieldsOf w).x) (regOf (fieldsOf w).y))) ∧
  ∀ (x y : Reg) (s : State),
    (∃ t, exec (.seReg x y) s = .next t ∧
      t.pc.toNat = (s.pc.toNat + if (s.getV x).toNat = (s.getV y).toNat then 4 else 2) % 65536 ∧
      Frame {.pc} s t) ∧
    (∃ t, exec (.sneReg x y) s = .next t ∧
      t.pc.toNat = (s.pc.toNat + if (s.getV x).toNat = (s.getV y).toNat then 2 else 4) % 65536 ∧
      Frame {.pc} s t)

/-- A jump to its own address leaves all state unchanged (R92, R187: the spec's convention D24 for the
end of a program). -/
def Obligations.JumpToSelfChangesNothing : Prop :=
  ∀ (nnn : BitVec 12) (s : State), s.pc.toNat = nnn.toNat → exec (.jp nnn) s = .next s

/-! ## Register load, arithmetic, bitwise, shift -/

/-- `6xnn` (R100): encoding, effect, no flag, no exception. -/
def Obligations.LoadImmediate : Prop :=
  (∀ w : Word, w &&& 0xF000 = 0x6000 ↔
    decodeWord w = some (.ldImm (regOf (fieldsOf w).x) (fieldsOf w).nn)) ∧
  ∀ (x : Reg) (nn : Byte) (s : State), ∃ t, exec (.ldImm x nn) s = .next t ∧
    t.getV x = nn ∧ t.pc.toNat = (s.pc.toNat + 2) % 65536 ∧ Frame {.pc, .v x} s t

/-- `7xnn` (R101): encoding, 8-bit wraparound, `VF` unchanged unless it is the destination. -/
def Obligations.AddImmediateSetsNoFlag : Prop :=
  (∀ w : Word, w &&& 0xF000 = 0x7000 ↔
    decodeWord w = some (.addImm (regOf (fieldsOf w).x) (fieldsOf w).nn)) ∧
  ∀ (x : Reg) (nn : Byte) (s : State), ∃ t, exec (.addImm x nn) s = .next t ∧
    (t.getV x).toNat = ((s.getV x).toNat + nn.toNat) % 256 ∧
    t.pc.toNat = (s.pc.toNat + 2) % 65536 ∧ Frame {.pc, .v x} s t

/-- `8xy0`, `8xy2`, `8xy3` (R102, R103, R104): encodings; copy, and, exclusive or, bit by bit; `VF`
unchanged unless it is the destination; no exception. -/
def Obligations.CopyAndXorSetNoFlag : Prop :=
  (∀ w : Word, w &&& 0xF00F = 0x8000 ↔
    decodeWord w = some (.ldReg (regOf (fieldsOf w).x) (regOf (fieldsOf w).y))) ∧
  (∀ w : Word, w &&& 0xF00F = 0x8002 ↔
    decodeWord w = some (.and (regOf (fieldsOf w).x) (regOf (fieldsOf w).y))) ∧
  (∀ w : Word, w &&& 0xF00F = 0x8003 ↔
    decodeWord w = some (.xor (regOf (fieldsOf w).x) (regOf (fieldsOf w).y))) ∧
  ∀ (x y : Reg) (s : State),
    (∃ t, exec (.ldReg x y) s = .next t ∧ t.getV x = s.getV y ∧
      t.pc.toNat = (s.pc.toNat + 2) % 65536 ∧ Frame {.pc, .v x} s t) ∧
    (∃ t, exec (.and x y) s = .next t ∧
      (∀ k, k < 8 → (t.getV x).getLsbD k = ((s.getV x).getLsbD k && (s.getV y).getLsbD k)) ∧
      t.pc.toNat = (s.pc.toNat + 2) % 65536 ∧ Frame {.pc, .v x} s t) ∧
    (∃ t, exec (.xor x y) s = .next t ∧
      (∀ k, k < 8 → (t.getV x).getLsbD k = ((s.getV x).getLsbD k != (s.getV y).getLsbD k)) ∧
      t.pc.toNat = (s.pc.toNat + 2) % 65536 ∧ Frame {.pc, .v x} s t)

/-- `8xy4` (R106, and its row of R113): the sum truncated to 8 bits; `VF` is 1 on carry and is not
written as a flag without; with `x` = 0xF the flag is written last (the spec's decision D3, log 13; the
reading C1, log 31). -/
def Obligations.AddRegistersCarry : Prop :=
  ∀ (x y : Reg) (s : State), ∃ t, exec (.addReg x y) s = .next t ∧
    (x ≠ VF → (t.getV x).toNat = ((s.getV x).toNat + (s.getV y).toNat) % 256 ∧
      (255 < (s.getV x).toNat + (s.getV y).toNat → t.getV VF = 1) ∧
      ((s.getV x).toNat + (s.getV y).toNat ≤ 255 → t.getV VF = s.getV VF)) ∧
    (x = VF → (255 < (s.getV x).toNat + (s.getV y).toNat → t.getV VF = 1) ∧
      ((s.getV x).toNat + (s.getV y).toNat ≤ 255 →
        (t.getV VF).toNat = (s.getV x).toNat + (s.getV y).toNat)) ∧
    t.pc.toNat = (s.pc.toNat + 2) % 65536 ∧ Frame {.pc, .v x, .v VF} s t

/-- `8xy5` and `8xy7` (R107, R109, and their rows of R113): the difference modulo 256, and `VF` = 1
exactly on borrow, written last (the spec's decisions D3, D9, log 13, 18). -/
def Obligations.SubtractSetsBorrow : Prop :=
  ∀ (x y : Reg) (s : State),
    (∃ t, exec (.sub x y) s = .next t ∧
      (x ≠ VF → (t.getV x).toNat = ((s.getV x).toNat + 256 - (s.getV y).toNat) % 256) ∧
      (t.getV VF).toNat = (if (s.getV x).toNat < (s.getV y).toNat then 1 else 0) ∧
      t.pc.toNat = (s.pc.toNat + 2) % 65536 ∧ Frame {.pc, .v x, .v VF} s t) ∧
    (∃ t, exec (.subn x y) s = .next t ∧
      (x ≠ VF → (t.getV x).toNat = ((s.getV y).toNat + 256 - (s.getV x).toNat) % 256) ∧
      (t.getV VF).toNat = (if (s.getV y).toNat < (s.getV x).toNat then 1 else 0) ∧
      t.pc.toNat = (s.pc.toNat + 2) % 65536 ∧ Frame {.pc, .v x, .v VF} s t)

/-- `8x?6` and `8x?E` (R108, R110, and their rows of R113): one-bit logical shifts of `Vx`; `VF` is the
bit that leaves, written last (the spec's decision D3, log 13); the unread `y` nibble is D8 (log 16). -/
def Obligations.ShiftsSetTheBitThatLeaves : Prop :=
  (∀ w : Word, w &&& 0xF00F = 0x8006 ↔ decodeWord w = some (.shr (regOf (fieldsOf w).x))) ∧
  (∀ w : Word, w &&& 0xF00F = 0x800E ↔ decodeWord w = some (.shl (regOf (fieldsOf w).x))) ∧
  ∀ (x : Reg) (s : State),
    (∃ t, exec (.shr x) s = .next t ∧
      (x ≠ VF → (t.getV x).toNat = (s.getV x).toNat / 2) ∧
      (t.getV VF).toNat = (s.getV x).toNat % 2 ∧
      t.pc.toNat = (s.pc.toNat + 2) % 65536 ∧ Frame {.pc, .v x, .v VF} s t) ∧
    (∃ t, exec (.shl x) s = .next t ∧
      (x ≠ VF → (t.getV x).toNat = (s.getV x).toNat * 2 % 256) ∧
      (t.getV VF).toNat = (s.getV x).toNat / 128 ∧
      t.pc.toNat = (s.pc.toNat + 2) % 65536 ∧ Frame {.pc, .v x, .v VF} s t)

/-! ## Index register and memory -/

/-- `Annn` (R115): encoding, effect, no flag, no exception, no check against `MEM_SIZE`. -/
def Obligations.LoadIndex : Prop :=
  (∀ w : Word, w &&& 0xF000 = 0xA000 ↔ decodeWord w = some (.ldI (fieldsOf w).nnn)) ∧
  ∀ (nnn : BitVec 12) (s : State), ∃ t, exec (.ldI nnn) s = .next t ∧
    t.i.toNat = nnn.toNat ∧ t.pc.toNat = (s.pc.toNat + 2) % 65536 ∧ Frame {.pc, .i} s t

/-- `Fx1E` and `Fx29` (R116, R117): the sum modulo 65536 with no flag (the spec's decision D10, log 19);
five times the whole register (D25, log 26). -/
def Obligations.IndexArithmetic : Prop :=
  ∀ (x : Reg) (s : State),
    (∃ t, exec (.addIVx x) s = .next t ∧
      t.i.toNat = (s.i.toNat + (s.getV x).toNat) % 65536 ∧
      t.pc.toNat = (s.pc.toNat + 2) % 65536 ∧ Frame {.pc, .i} s t) ∧
    (∃ t, exec (.ldFVx x) s = .next t ∧ t.i.toNat = (s.getV x).toNat * 5 ∧
      t.pc.toNat = (s.pc.toNat + 2) % 65536 ∧ Frame {.pc, .i} s t)

/-- `Fx33` in bounds (R118): hundreds, tens and units at `I`, `I + 1`, `I + 2`; every other byte, `I` and
every register as before. The bound 4096 is the spec's decision D1 (log 1). -/
def Obligations.DecimalDigitsStored : Prop :=
  ∀ (x : Reg) (s : State), s.i.toNat + 2 < 4096 → ∃ t, exec (.ldBVx x) s = .next t ∧
    (t.readMem s.i.toNat).toNat = (s.getV x).toNat / 100 ∧
    (t.readMem (s.i.toNat + 1)).toNat = (s.getV x).toNat / 10 % 10 ∧
    (t.readMem (s.i.toNat + 2)).toNat = (s.getV x).toNat % 10 ∧
    t.pc.toNat = (s.pc.toNat + 2) % 65536 ∧
    Frame {p | p = .pc ∨ ∃ k, k < 3 ∧ p = .mem (s.i.toNat + k)} s t

/-- `Fx55` in bounds (R119, R121): `V0` to `Vx` at `I` to `I + x`; every other byte, `I` and every
register as before (the spec's decisions D5, D6, log 14, 15). -/
def Obligations.RegisterBlockStored : Prop :=
  ∀ (x : Reg) (s : State), s.i.toNat + x.val < 4096 → ∃ t, exec (.ldMemVx x) s = .next t ∧
    (∀ r : Reg, r ≤ x → t.readMem (s.i.toNat + r.val) = s.getV r) ∧
    t.pc.toNat = (s.pc.toNat + 2) % 65536 ∧
    Frame {p | p = .pc ∨ ∃ k, k ≤ x.val ∧ p = .mem (s.i.toNat + k)} s t

/-- `Fx65` in bounds (R120, R121): `V0` to `Vx` from `I` to `I + x`; the other registers, `I` and memory
as before (the spec's decision D5, log 14). -/
def Obligations.RegisterBlockLoaded : Prop :=
  ∀ (x : Reg) (s : State), s.i.toNat + x.val < 4096 → ∃ t, exec (.ldVxMem x) s = .next t ∧
    (∀ r : Reg, r ≤ x → t.getV r = s.readMem (s.i.toNat + r.val)) ∧
    t.pc.toNat = (s.pc.toNat + 2) % 65536 ∧
    Frame {p | p = .pc ∨ ∃ r : Reg, r ≤ x ∧ p = .v r} s t

/-- The source's register block round trip (95_test_vectors.md S8): what `Fx55` stored, `Fx65` brings
back, whatever the registers became in between, with no reload of `I` (R119 to R121; the spec's
decisions D5, D6, log 14, 15). -/
def Obligations.RegisterBlockRoundTrip : Prop :=
  ∀ (x : Reg) (s : State) (w : Vector Byte 16), s.i.toNat + x.val < 4096 →
    ∃ t u, exec (.ldMemVx x) s = .next t ∧ exec (.ldVxMem x) { t with v := w } = .next u ∧
      (∀ r : Reg, r ≤ x → u.getV r = s.getV r) ∧ u.i = s.i

/-- A store over the instruction stream is seen by the next fetch (20_memory.md R54, derived there): after
`Fx55` and after `Fx33`, the word fetched at any address is the two bytes as they are after the store, high
byte first, whether both, one or none of them was stored, the storing instruction's own bytes included. That
`Fx55` exists is the spec's decision D6 (log 15), the bound 4096 is D1 (log 1). -/
def Obligations.StoreIsSeenByTheNextFetch : Prop :=
  (∀ (x : Reg) (s : State), s.i.toNat + x.val < 4096 → ∃ t, exec (.ldMemVx x) s = .next t ∧
    ∀ (a : Word) (hi lo : Byte), a.toNat + 1 < 4096 → ByteAfterBlockStore s x a.toNat hi →
      ByteAfterBlockStore s x (a.toNat + 1) lo → fetch { t with pc := a } = .ok (hi ++ lo)) ∧
  (∀ (x : Reg) (s : State), s.i.toNat + 2 < 4096 → ∃ t, exec (.ldBVx x) s = .next t ∧
    ∀ (a : Word) (hi lo : Byte), a.toNat + 1 < 4096 → ByteAfterDigitStore s x a.toNat hi →
      ByteAfterDigitStore s x (a.toNat + 1) lo → fetch { t with pc := a } = .ok (hi ++ lo))

/-! ## Display -/

/-- `00E0` (R126): every cell 0, nothing else but `PC`. That `0?E0` decodes to it whatever the `x` nibble
is the spec's decision D8 (log 16). -/
def Obligations.ClearDisplay : Prop :=
  (∀ w : Word, w &&& 0xF0FF = 0x00E0 ↔ decodeWord w = some .cls) ∧
  ∀ s : State, ∃ t, exec .cls s = .next t ∧ (∀ c r, t.fb.get c r = false) ∧
    t.pc.toNat = (s.pc.toNat + 2) % 65536 ∧
    Frame {p | p = .pc ∨ ∃ c r, p = .cell c r} s t

/-- `Dxyn` in bounds, or with `n` = 0 (R127 to R132; R130 is derived there; `n` = 0 is the spec's decision
D13, log 21): the display afterwards is the display before, exclusive or the sprite's placed image,
wrapped; `VF` is 1 exactly when the image and the old display share a set pixel; `I`, memory and the other
registers as before. -/
def Obligations.DrawIsXorOfThePlacedSprite : Prop :=
  ∀ (x y : Reg) (n : Nat) (s : State), n ≤ 15 → (n = 0 ∨ s.i.toNat + n - 1 < 4096) →
    ∃ t, exec (.drw x y n) s = .next t ∧
      (∀ c r, t.fb.get c r = true ↔ ¬(s.fb.get c r = true ↔ SpriteLit s x y n c r)) ∧
      (t.getV VF = 0 ∨ t.getV VF = 1) ∧
      (t.getV VF = 1 ↔ ∃ c r, s.fb.get c r = true ∧ SpriteLit s x y n c r) ∧
      t.pc.toNat = (s.pc.toNat + 2) % 65536 ∧
      Frame {p | p = .pc ∨ p = .v VF ∨ ∃ c r, p = .cell c r} s t

/-- The source's draw and collision round trip (95_test_vectors.md S7) for every sprite and display: the
same sprite drawn twice leaves the display as it was, and the second draw collides exactly when the
sprite lights a pixel that the first draw set. The coordinates are not in `VF`, which the first draw
overwrites (R132). -/
def Obligations.DrawingTwiceRestoresTheDisplay : Prop :=
  ∀ (x y : Reg) (n : Nat) (s : State), x ≠ VF → y ≠ VF → n ≤ 15 →
    (n = 0 ∨ s.i.toNat + n - 1 < 4096) →
    ∃ t u, exec (.drw x y n) s = .next t ∧ exec (.drw x y n) t = .next u ∧ u.fb = s.fb ∧
      (u.getV VF = 1 ↔ ∃ c r, s.fb.get c r = false ∧ SpriteLit s x y n c r)

/-- What the host reads (R133, R22): 2048 cells, cell `y * W + x` being `FB[y][x]` (the order is the
spec's decision D21, log 24); the `read_fb` event changes nothing but the host's own sequence (log 9). -/
def Obligations.HostReadsTheDisplay : Prop :=
  (∀ s : State, s.getBuffer.length = 2048 ∧
    ∀ (c : Fin 64) (r : Fin 32), s.getBuffer[r.val * 64 + c.val]? = some (s.fb.get c r)) ∧
  ∀ s : State, s.pendingEvent = some .readFb → step s = .next s.takeEvent

/-! ## Keyboard, timers, random -/

/-- `Ex9E` and `ExA1` (R136, R137): the whole 8 bits of `Vx` against the one observed key; no key, and a
value above 15, is never pressed (the spec's decision D14, log 22). -/
def Obligations.KeySkips : Prop :=
  ∀ (x : Reg) (s : State),
    (∃ t, exec (.skp x) s = .next t ∧
      t.pc.toNat =
        (s.pc.toNat + if s.key.map BitVec.toNat = some (s.getV x).toNat then 4 else 2) % 65536 ∧
      Frame {.pc} s t) ∧
    (∃ t, exec (.sknp x) s = .next t ∧
      t.pc.toNat =
        (s.pc.toNat + if s.key.map BitVec.toNat = some (s.getV x).toNat then 2 else 4) % 65536 ∧
      Frame {.pc} s t)

/-- `Fx0A` (R138): with a key observed, its code in `Vx`; with none, no state changes at all. That it is
the level of `KEY` that counts is the spec's decision D26 (log 27). -/
def Obligations.KeyWait : Prop :=
  (∀ w : Word, w &&& 0xF0FF = 0xF00A ↔ decodeWord w = some (.ldVxK (regOf (fieldsOf w).x))) ∧
  ∀ (x : Reg) (s : State),
    (∀ k, s.key = some k → ∃ t, exec (.ldVxK x) s = .next t ∧ (t.getV x).toNat = k.toNat ∧
      t.pc.toNat = (s.pc.toNat + 2) % 65536 ∧ Frame {.pc, .v x} s t) ∧
    (s.key = none → exec (.ldVxK x) s = .next s)

/-- `Fx07` and `Fx15` (R139, R140): encodings; the delay timer read and written whole; a step decrements
nothing. -/
def Obligations.DelayTimerReadAndWritten : Prop :=
  (∀ w : Word, w &&& 0xF0FF = 0xF007 ↔ decodeWord w = some (.ldVxDt (regOf (fieldsOf w).x))) ∧
  (∀ w : Word, w &&& 0xF0FF = 0xF015 ↔ decodeWord w = some (.ldDtVx (regOf (fieldsOf w).x))) ∧
  ∀ (x : Reg) (s : State),
    (∃ t, exec (.ldVxDt x) s = .next t ∧ t.getV x = s.dt ∧
      t.pc.toNat = (s.pc.toNat + 2) % 65536 ∧ Frame {.pc, .v x} s t) ∧
    (∃ t, exec (.ldDtVx x) s = .next t ∧ t.dt = s.getV x ∧
      t.pc.toNat = (s.pc.toNat + 2) % 65536 ∧ Frame {.pc, .dt} s t)

/-- `Fx18` (R141): the sound timer written, nothing else. That nothing reads it is the spec's decision
D16 (log 23). -/
def Obligations.SoundTimerWritten : Prop :=
  (∀ w : Word, w &&& 0xF0FF = 0xF018 ↔ decodeWord w = some (.ldStVx (regOf (fieldsOf w).x))) ∧
  ∀ (x : Reg) (s : State), ∃ t, exec (.ldStVx x) s = .next t ∧ t.st = s.getV x ∧
    t.pc.toNat = (s.pc.toNat + 2) % 65536 ∧ Frame {.pc, .st} s t

/-- `Cxnn` (R142, R143): the random byte offered to the step, masked, whatever that byte is: the host's
where a `step(rnd)` event gives one, else a free one (the spec's decision D15; log 9, 10). -/
def Obligations.RandomByteIsMasked : Prop :=
  (∀ (x : Reg) (nn : Byte) (s : State), ∃ t, exec (.rnd x nn) s = .next t ∧
    t.getV x = s.rndByte &&& nn ∧ (∀ b, s.env.rndIn = some b → t.getV x = b &&& nn) ∧
    t.pc.toNat = (s.pc.toNat + 2) % 65536 ∧ Frame {.pc, .v x, .rndCount} s t) ∧
  ∀ (x : Reg) (nn b : Byte) (s : State), s.halt = false →
    s.pendingEvent = some (.step b) → s.pc.toNat + 1 < 4096 →
    decodeBytes [s.readMem s.pc.toNat, s.readMem (s.pc.toNat + 1)] = .ok (.rnd x nn, []) →
    ∃ t, step s = .next t ∧ t.getV x = b &&& nn

/-! ## The host's events -/

/-- `set_key(k)` (R135): it replaces the whole keyboard state and changes nothing else, also while
halted. That the event leaves the host's own sequence, and how, is the model's choice (log 9). -/
def Obligations.SetKeyReplacesTheKey : Prop :=
  ∀ (k : Option KeyCode) (s : State), s.pendingEvent = some (.setKey k) →
    ∃ t, step s = .next t ∧ t.key = k ∧ Frame {.key} s.takeEvent t

/-- `tick` (R160, R161): the delay timer counts down by one and stops at 0; the sound timer and all else
as before, also while halted (the spec's decision D16, log 23). That the event leaves the host's own
sequence is the model's choice (log 9). -/
def Obligations.TickCountsDownAndStopsAtZero : Prop :=
  ∀ s : State, s.pendingEvent = some .tick →
    ∃ t, step s = .next t ∧ t.dt.toNat = s.dt.toNat - 1 ∧ Frame {.dt} s.takeEvent t

/-- `load(image)` in its time (R173): an image that fits is copied to 0x200 on and nothing else changes;
one that is too long copies nothing and halts the machine with MemoryOutOfBounds(MEM_SIZE) (the spec's
decision D23, log 12). The time for `load` and the host's own sequence are the model's (log 9, 11). -/
def Obligations.LoadCopiesTheImageOrHalts : Prop :=
  ∀ (image : List Byte) (s : State), s.pendingEvent = some (.load image) → s.env.booting = true →
    (image.length ≤ 3584 → ∃ t, step s = .next t ∧
      (∀ (j : Nat) (b : Byte), image[j]? = some b → t.readMem (0x200 + j) = b) ∧
      t.env.booting = false ∧
      Frame {p | p = .booting ∨ ∃ j, j < image.length ∧ p = .mem (0x200 + j)} s.takeEvent t) ∧
    (3584 < image.length → step s = .next { s.takeEvent.leaveBoot with
      halt := true
      err := ⟨.memoryOutOfBounds, s.pc, false, 0, 4096⟩ })

/-- `reset` (R170), at any time, also while halted: every element of the state as at reset. The values
other than `PC` and the place of the font are the spec's decisions D17, D18 (log 3, 6); what stays of the
host's side is the model's own (log 9, 32). -/
def Obligations.ResetEventGivesTheResetState : Prop :=
  ∀ s : State, s.pendingEvent = some .reset → ∃ t, step s = .next t ∧
    t.pc = 0x200 ∧ (∀ r : Reg, t.getV r = 0) ∧ t.i = 0 ∧ t.stack = [] ∧ t.dt = 0 ∧ t.st = 0 ∧
    t.key = none ∧ (∀ c r, t.fb.get c r = false) ∧ t.halt = false ∧
    t.err = ⟨.none, 0, false, 0, 0⟩ ∧ (∀ a, t.readMem a = State.reset.readMem a) ∧
    t.env = { s.takeEvent.env with booting := true, rndIn := none }

/-- The machine right after reset: `PC` at 0x200 and the font at 0 (R31, R32, from the source but for the
font's 80 bytes, PRESUMED, log 2), every byte from 0x50 on and every other element of R10 0, empty or none:
the registers, `I`, the timers, the call stack, `KEY`, the display, `HALT` and every field of `ERR` (R27 to
R30, the spec's decisions D17, D18, log 3, 6). -/
def Obligations.ResetStateValues : Prop :=
  State.reset.pc = 0x200 ∧
  State.reset.mem.readBytes 0 80 =
    [0xF0, 0x90, 0x90, 0x90, 0xF0] ++ [0x20, 0x60, 0x20, 0x20, 0x70] ++
    [0xF0, 0x10, 0xF0, 0x80, 0xF0] ++ [0xF0, 0x10, 0xF0, 0x10, 0xF0] ++
    [0x90, 0x90, 0xF0, 0x10, 0x10] ++ [0xF0, 0x80, 0xF0, 0x10, 0xF0] ++
    [0xF0, 0x80, 0xF0, 0x90, 0xF0] ++ [0xF0, 0x10, 0x20, 0x40, 0x40] ++
    [0xF0, 0x90, 0xF0, 0x90, 0xF0] ++ [0xF0, 0x90, 0xF0, 0x10, 0xF0] ++
    [0xF0, 0x90, 0xF0, 0x90, 0x90] ++ [0xE0, 0x90, 0xE0, 0x90, 0xE0] ++
    [0xF0, 0x80, 0x80, 0x80, 0xF0] ++ [0xE0, 0x90, 0x90, 0x90, 0xE0] ++
    [0xF0, 0x80, 0xF0, 0x80, 0xF0] ++ [0xF0, 0x80, 0xF0, 0x80, 0x80] ∧
  (∀ a, 0x50 ≤ a → State.reset.readMem a = 0) ∧ (∀ r : Reg, State.reset.getV r = 0) ∧
  State.reset.i = 0 ∧ State.reset.dt = 0 ∧ State.reset.st = 0 ∧ State.reset.sp = 0 ∧
  State.reset.key = none ∧ (∀ c r, State.reset.fb.get c r = false) ∧ State.reset.halt = false ∧
  State.reset.err.code = .none ∧ State.reset.err.pc = 0 ∧ State.reset.err.wordValid = false ∧
  State.reset.err.word = 0 ∧ State.reset.err.addr = 0

/-! ## The whole machine -/

/-- A step changes only what the executed instruction's rule names (40_step_fetch_decode.md R86, derived
there; R12, R13, R90, R121): for every instruction that does not raise, every part outside `Writes` is as
before. When an instruction raises rests on the spec's decisions D1, D12 (log 1, 21). -/
def Obligations.EveryInstructionKeepsItsFrame : Prop :=
  ∀ (i : Instr) (s t : State), exec i s = .next t → ¬Raises s i → Frame (Writes s i) s t

/-- The invariant holds at reset (R27; the form of memory is the model's own, log 4). -/
def Obligations.InvariantHoldsAtReset : Prop := Inv State.reset

/-- Every step keeps the invariant, whatever event it is: memory in canonical form, call stack within its
bound (10_state.md R16), `PC` and return addresses in range (R15, derived there under the spec's decision
D10), `HALT` and `ERR` in agreement (R23, R24, the spec's decision D17). Log 1, 4, 6, 19. -/
def Obligations.EveryStepKeepsTheInvariant : Prop :=
  ∀ s t : State, Inv s → step s = .next t → Inv t

/-- Only `reset` leaves `HALT`, and while the machine is halted only the delay timer, the keyboard and the
host's own sequence change (60_exceptions.md R156; the spec's decision D17, log 7, 9). -/
def Obligations.OnlyResetLeavesHalt : Prop :=
  ∀ s t : State, Inv s → s.halt = true → step s = .next t →
    s.pendingEvent = some .reset ∨ Frame {.dt, .key} s.takeEvent t

/-- Two memories in canonical form that hold the same bytes are the same data: the form is the model's
own (log 4), for the memory of 10_state.md R21. -/
def Obligations.CanonicalMemoryIsDeterminedByItsBytes : Prop :=
  ∀ m m' : Memory, m.wf = true → m'.wf = true → (∀ a, m.read a = m'.read a) → m = m'

/-- An instruction moves the depth of the call stack by at most one: down only by `00EE`, up only by
`2nnn`, and never past its bound (10_state.md R16, 41_control_flow.md R99). The bound 16 is the spec's
decision D1 (log 1). -/
def Obligations.StackDepthMovesOnlyByCallAndReturn : Prop :=
  ∀ (i : Instr) (s t : State), exec i s = .next t →
    (t.stack = s.stack) ∨ (i = .ret ∧ t.sp + 1 = s.sp) ∨
    (∃ nnn, i = .call nnn ∧ t.sp = s.sp + 1 ∧ s.sp ≠ 16)

/-! ## The host's sequence of events -/

/-- The host's events come in the order it gives them (R6, R187): the queued ones first, then what follows,
which is the model's own free steps, a list of events over and over, or events of which nothing is known;
taking one changes nothing but the host's own side. The form is the model's (log 9, 33). -/
def Obligations.HostEventsAreTakenInOrder : Prop :=
  ∀ s : State,
    (∀ e rest, s.env.schedule = e :: rest →
      s.pendingEvent = some e ∧ s.takeEvent.env.schedule = rest ∧
        s.takeEvent.env.eventCount = s.env.eventCount) ∧
    (s.env.schedule = [] → s.env.tail = .steps → s.pendingEvent = none ∧ s.takeEvent = s) ∧
    (∀ e es, s.env.schedule = [] → s.env.tail = .cycle e es →
      s.pendingEvent = some e ∧ s.takeEvent.env.schedule = es ∧
        s.takeEvent.env.eventCount = s.env.eventCount) ∧
    (s.env.schedule = [] → s.env.tail = .free →
      s.pendingEvent = some (Config.hostEvent s.env.eventCount) ∧ s.takeEvent.env.schedule = [] ∧
        s.takeEvent.env.eventCount = s.env.eventCount + 1) ∧
    Frame {.schedule, .eventCount} s s.takeEvent

/-- A host that ticks without end and never steps (70_reset_and_hazards.md R187: the host chooses the
sequence, finite or infinite): however long the run, it goes on, the delay timer counts down to 0 and no
instruction runs. The endless sequence is the model's own form (log 9), the stop at 0 the spec's decision
D16 (log 23). -/
def Obligations.EndlessTicksRunNoInstruction : Prop :=
  ∀ (s : State) (n : Nat), s.env.schedule = [] → s.env.tail = .cycle .tick [] →
    ∃ t : State, core.run n s = .next t ∧ t.dt.toNat = s.dt.toNat - n ∧ Frame {.dt} s t

end
end

