-- ==== Sys2Proof/Laws/Decode.lean ====
section
/-! SUPPORT. Words and fields as numbers: each format's word, each field of a word, and with them the
fields of an encoded word and the word rebuilt from its fields (30_encoding.md R62, R63). -/

namespace Sys2Proof

@[simp] theorem regOf_nibbleOf (r : Reg) : regOf (nibbleOf r) = r := by
  apply Fin.ext
  have := r.isLt
  simp only [regOf, nibbleOf, BitVec.toNat_ofNat]
  omega

@[simp] theorem nibbleOf_regOf (f : BitVec 4) : nibbleOf (regOf f) = f := by
  apply BitVec.eq_of_toNat_eq
  have := f.isLt
  simp only [regOf, nibbleOf, BitVec.toNat_ofNat]
  omega

/-! ### Words as numbers -/

theorem toNat_encodeNnn (op : BitVec 4) (nnn : BitVec 12) :
    (encodeNnn op nnn).toNat = op.toNat * 4096 + nnn.toNat := by
  unfold encodeNnn
  rw [BitVec.toNat_append, ← Nat.shiftLeft_add_eq_or_of_lt nnn.isLt, Nat.shiftLeft_eq]

theorem toNat_encodeXnn (op x : BitVec 4) (nn : BitVec 8) :
    (encodeXnn op x nn).toNat = op.toNat * 4096 + x.toNat * 256 + nn.toNat := by
  unfold encodeXnn
  rw [BitVec.toNat_append, ← Nat.shiftLeft_add_eq_or_of_lt nn.isLt, Nat.shiftLeft_eq,
    BitVec.toNat_append, ← Nat.shiftLeft_add_eq_or_of_lt x.isLt, Nat.shiftLeft_eq]
  omega

theorem toNat_encodeXyn (op x y n : BitVec 4) :
    (encodeXyn op x y n).toNat = op.toNat * 4096 + x.toNat * 256 + y.toNat * 16 + n.toNat := by
  unfold encodeXyn
  rw [BitVec.toNat_append, ← Nat.shiftLeft_add_eq_or_of_lt n.isLt, Nat.shiftLeft_eq,
    BitVec.toNat_append, ← Nat.shiftLeft_add_eq_or_of_lt y.isLt, Nat.shiftLeft_eq,
    BitVec.toNat_append, ← Nat.shiftLeft_add_eq_or_of_lt x.isLt, Nat.shiftLeft_eq]
  omega

theorem toNat_wordOfBytes (hi lo : Byte) : (wordOfBytes hi lo).toNat = hi.toNat * 256 + lo.toNat := by
  unfold wordOfBytes
  rw [BitVec.toNat_append, ← Nat.shiftLeft_add_eq_or_of_lt lo.isLt, Nat.shiftLeft_eq]

/-! ### Fields as numbers -/

theorem toNat_op (w : Word) : (fieldsOf w).op.toNat = w.toNat / 4096 := by
  have := w.isLt
  simp [fieldsOf, Nat.shiftRight_eq_div_pow]
  omega

theorem toNat_x (w : Word) : (fieldsOf w).x.toNat = w.toNat / 256 % 16 := by
  simp [fieldsOf, Nat.shiftRight_eq_div_pow]

theorem toNat_y (w : Word) : (fieldsOf w).y.toNat = w.toNat / 16 % 16 := by
  simp [fieldsOf, Nat.shiftRight_eq_div_pow]

theorem toNat_n (w : Word) : (fieldsOf w).n.toNat = w.toNat % 16 := by
  simp [fieldsOf]

theorem toNat_nn (w : Word) : (fieldsOf w).nn.toNat = w.toNat % 256 := by
  simp [fieldsOf]

theorem toNat_nnn (w : Word) : (fieldsOf w).nnn.toNat = w.toNat % 4096 := by
  simp [fieldsOf]

/-! ### The fields of an encoded word -/

theorem fieldsOf_encodeNnn (op : BitVec 4) (nnn : BitVec 12) :
    (fieldsOf (encodeNnn op nnn)).op = op ∧ (fieldsOf (encodeNnn op nnn)).nnn = nnn := by
  have := nnn.isLt
  refine ⟨BitVec.eq_of_toNat_eq ?_, BitVec.eq_of_toNat_eq ?_⟩ <;>
    simp only [toNat_op, toNat_nnn, toNat_encodeNnn] <;> omega

theorem fieldsOf_encodeXnn (op x : BitVec 4) (nn : BitVec 8) :
    (fieldsOf (encodeXnn op x nn)).op = op ∧ (fieldsOf (encodeXnn op x nn)).x = x ∧
      (fieldsOf (encodeXnn op x nn)).nn = nn := by
  have := nn.isLt
  have := x.isLt
  refine ⟨BitVec.eq_of_toNat_eq ?_, BitVec.eq_of_toNat_eq ?_, BitVec.eq_of_toNat_eq ?_⟩ <;>
    simp only [toNat_op, toNat_x, toNat_nn, toNat_encodeXnn] <;> omega

theorem fieldsOf_encodeXyn (op x y n : BitVec 4) :
    (fieldsOf (encodeXyn op x y n)).op = op ∧ (fieldsOf (encodeXyn op x y n)).x = x ∧
      (fieldsOf (encodeXyn op x y n)).y = y ∧ (fieldsOf (encodeXyn op x y n)).n = n := by
  have := n.isLt
  have := x.isLt
  have := y.isLt
  refine ⟨BitVec.eq_of_toNat_eq ?_, BitVec.eq_of_toNat_eq ?_, BitVec.eq_of_toNat_eq ?_,
    BitVec.eq_of_toNat_eq ?_⟩ <;>
    simp only [toNat_op, toNat_x, toNat_y, toNat_n, toNat_encodeXyn] <;> omega

/-! ### Bytes of a word -/

/-- A word is its two bytes, high byte first (R47). -/
theorem wordOfBytes_bytes (w : Word) : wordOfBytes (w.extractLsb' 8 8) (w.extractLsb' 0 8) = w := by
  have := w.isLt
  apply BitVec.eq_of_toNat_eq
  rw [toNat_wordOfBytes]
  simp [Nat.shiftRight_eq_div_pow]
  omega

theorem decodeBytes_bytesOfWord (w : Word) (rest : List Byte) :
    decodeBytes (bytesOfWord w ++ rest) =
      match decodeWord w with
      | some i => .ok (i, rest)
      | none => .error (.unsupportedInstruction w) := by
  cases h : decodeWord w <;>
    simp only [bytesOfWord, List.cons_append, List.nil_append, decodeBytes, wordOfBytes_bytes, h]

/-! ### Masks, field by field -/

theorem encodeNnn_and (o o' : BitVec 4) (a a' : BitVec 12) :
    encodeNnn o a &&& encodeNnn o' a' = encodeNnn (o &&& o') (a &&& a') :=
  BitVec.and_append

theorem encodeXnn_and (o o' x x' : BitVec 4) (a a' : BitVec 8) :
    encodeXnn o x a &&& encodeXnn o' x' a' = encodeXnn (o &&& o') (x &&& x') (a &&& a') := by
  simp only [encodeXnn]
  exact BitVec.and_append.trans (congrArg (· ++ _) BitVec.and_append)

theorem encodeXyn_and (o o' x x' y y' n n' : BitVec 4) :
    encodeXyn o x y n &&& encodeXyn o' x' y' n' =
      encodeXyn (o &&& o') (x &&& x') (y &&& y') (n &&& n') := by
  simp only [encodeXyn]
  exact BitVec.and_append.trans (congrArg (· ++ _)
    (BitVec.and_append.trans (congrArg (· ++ _) BitVec.and_append)))

/-! ### A word from its fields (R63) -/

theorem encodeNnn_fieldsOf (w : Word) : encodeNnn (fieldsOf w).op (fieldsOf w).nnn = w := by
  apply BitVec.eq_of_toNat_eq
  rw [toNat_encodeNnn, toNat_op, toNat_nnn]
  omega

theorem encodeXnn_fieldsOf (w : Word) : encodeXnn (fieldsOf w).op (fieldsOf w).x (fieldsOf w).nn = w := by
  apply BitVec.eq_of_toNat_eq
  rw [toNat_encodeXnn, toNat_op, toNat_x, toNat_nn]
  omega

theorem encodeXyn_fieldsOf (w : Word) :
    encodeXyn (fieldsOf w).op (fieldsOf w).x (fieldsOf w).y (fieldsOf w).n = w := by
  apply BitVec.eq_of_toNat_eq
  rw [toNat_encodeXyn, toNat_op, toNat_x, toNat_y, toNat_n]
  omega

/-! ### The masks of the opcode map as numbers (R67) -/

/-- A mask acts on a word nibble by nibble. -/
theorem and_encodeXyn (w : Word) (a b c d : BitVec 4) :
    w &&& encodeXyn a b c d = encodeXyn ((fieldsOf w).op &&& a) ((fieldsOf w).x &&& b)
      ((fieldsOf w).y &&& c) ((fieldsOf w).n &&& d) := by
  conv_lhs => rw [← encodeXyn_fieldsOf w]
  exact encodeXyn_and _ _ _ _ _ _ _ _

theorem nibble_and_ones (f : BitVec 4) : (f &&& 0xF).toNat = f.toNat := by
  rw [show f &&& 0xF = f from BitVec.and_allOnes]

theorem nibble_and_zero (f : BitVec 4) : (f &&& 0).toNat = 0 := by
  rw [show f &&& 0 = 0 from BitVec.and_zero]
  rfl

theorem toNat_and_F000 (w : Word) : (w &&& 0xF000).toNat = w.toNat / 4096 * 4096 := by
  rw [show (0xF000 : Word) = encodeXyn 0xF 0 0 0 from rfl, and_encodeXyn, toNat_encodeXyn]
  simp only [nibble_and_ones, nibble_and_zero, toNat_op]
  omega

theorem toNat_and_F00F (w : Word) :
    (w &&& 0xF00F).toNat = w.toNat / 4096 * 4096 + w.toNat % 16 := by
  rw [show (0xF00F : Word) = encodeXyn 0xF 0 0 0xF from rfl, and_encodeXyn, toNat_encodeXyn]
  simp only [nibble_and_ones, nibble_and_zero, toNat_op, toNat_n]
  omega

theorem toNat_and_F0FF (w : Word) :
    (w &&& 0xF0FF).toNat = w.toNat / 4096 * 4096 + w.toNat % 256 := by
  rw [show (0xF0FF : Word) = encodeXyn 0xF 0 0xF 0xF from rfl, and_encodeXyn, toNat_encodeXyn]
  simp only [nibble_and_ones, nibble_and_zero, toNat_op, toNat_y, toNat_n]
  omega

end Sys2Proof
end

