-- ==== Sys2Proof/Laws/Memory.lean ====
section
/-! SUPPORT. The laws of memory: a read after a write, and the canonical form kept by every operation. -/

namespace Sys2Proof.Machine

namespace MemoryLaws

@[simp] theorem read_nil (a : Nat) : Memory.read [] a = Memory.blank a := rfl

theorem read_cons (c : Host.Cell) (m : Memory) (a : Nat) :
    Memory.read (c :: m) a = if c.1 = a then c.2 else Memory.read m a := rfl

theorem read_put (m : Memory) (a c : Nat) (v : Byte) :
    Memory.read (Memory.put m a v) c = if c = a then v else Memory.read m c := by
  induction m with
  | nil => simp [Memory.put, read_cons, eq_comm]
  | cons d m ih =>
    obtain ⟨b, w⟩ := d
    simp only [Memory.put]
    by_cases h1 : a < b
    · simp only [if_pos h1, read_cons, eq_comm]
    · by_cases h2 : a = b
      · subst h2
        simp only [if_neg h1, if_true, read_cons]
        by_cases hc : c = a
        · simp only [hc, if_true]
        · simp only [if_neg hc, if_neg (Ne.symm hc)]
      · simp only [if_neg h1, if_neg h2, read_cons, ih]
        by_cases hc : c = a
        · simp only [hc, if_true, if_neg (Ne.symm h2)]
        · simp only [if_neg hc]

theorem read_erase (m : Memory) (a c : Nat) :
    Memory.read (Memory.erase m a) c = if c = a then Memory.blank a else Memory.read m c := by
  induction m with
  | nil => simp +contextual [Memory.erase]
  | cons d m ih =>
    obtain ⟨b, w⟩ := d
    by_cases h : b = a
    · subst h
      simp only [Memory.erase, List.filter_cons, bne_self_eq_false, Bool.false_eq_true, if_false,
        read_cons] at ih ⊢
      rw [ih]
      split_ifs <;> first | rfl | omega
    · simp only [Memory.erase, List.filter_cons, bne_iff_ne, ne_eq, h, not_false_eq_true, if_true,
        read_cons] at ih ⊢
      rw [ih]
      split_ifs <;> first | rfl | omega

/-- A read after a write (R42, R43, R51): the byte written at that address, the old byte elsewhere. -/
theorem read_write (m : Memory) (a c : Nat) (v : Byte) :
    Memory.read (Memory.write m a v) c = if c = a then v else Memory.read m c := by
  unfold Memory.write
  split_ifs with h1 h2 h2
  · rw [read_erase, if_pos h2, h1]
  · rw [read_erase, if_neg h2]
  · rw [read_put, if_pos h2]
  · rw [read_put, if_neg h2]

/-- Reading after a block store: byte `c - a` of the block inside it, the old byte outside. -/
theorem read_writeBytes (bs : List Byte) (m : Memory) (a c : Nat) :
    Memory.read (Memory.writeBytes m a bs) c =
      if a ≤ c ∧ c < a + bs.length then (bs[c - a]?).getD 0 else Memory.read m c := by
  induction bs generalizing m a with
  | nil =>
    simp only [Memory.writeBytes, List.length_nil]
    rw [if_neg (by omega)]
  | cons v vs ih =>
    simp only [Memory.writeBytes, ih, read_write, List.length_cons]
    by_cases h1 : c = a
    · subst h1
      rw [if_neg (by omega), if_pos rfl, if_pos (by omega)]
      simp
    · by_cases h2 : a + 1 ≤ c ∧ c < a + 1 + vs.length
      · rw [if_pos h2, if_pos (by omega), show c - a = (c - (a + 1)) + 1 by omega]
        simp
      · rw [if_neg h2, if_neg h1, if_neg (by omega)]

@[simp] theorem length_readBytes (m : Memory) (a k : Nat) : (Memory.readBytes m a k).length = k := by
  induction k generalizing a with
  | zero => rfl
  | succ k ih => simp [Memory.readBytes, ih]

theorem getElem?_readBytes (m : Memory) (a k j : Nat) :
    (Memory.readBytes m a k)[j]? = if j < k then some (Memory.read m (a + j)) else none := by
  induction k generalizing a j with
  | zero => simp [Memory.readBytes]
  | succ k ih =>
    cases j with
    | zero => simp [Memory.readBytes]
    | succ j => simp [Memory.readBytes, ih, Nat.add_assoc, Nat.add_comm 1 j]

/-! ## The canonical form -/

theorem wfFrom_mono {m : Memory} {lo hi : Nat} (h : lo ≤ hi) (hm : Memory.wfFrom hi m = true) :
    Memory.wfFrom lo m = true := by
  cases m with
  | nil => rfl
  | cons d m =>
    obtain ⟨b, w⟩ := d
    simp only [Memory.wfFrom, Bool.and_eq_true, decide_eq_true_eq] at hm ⊢
    exact ⟨⟨⟨h.trans hm.1.1.1, hm.1.1.2⟩, hm.1.2⟩, hm.2⟩

theorem wfFrom_put {m : Memory} {lo a : Nat} {v : Byte} (hm : Memory.wfFrom lo m = true) (hlo : lo ≤ a)
    (ha : a < Config.memSize) (hv : v ≠ Memory.blank a) : Memory.wfFrom lo (Memory.put m a v) = true := by
  induction m generalizing lo with
  | nil => simp [Memory.put, Memory.wfFrom, hlo, ha, hv]
  | cons d m ih =>
    obtain ⟨b, w⟩ := d
    simp only [Memory.wfFrom, Bool.and_eq_true, decide_eq_true_eq, bne_iff_ne] at hm
    simp only [Memory.put]
    split_ifs with h1 h2
    · simp only [Memory.wfFrom, Bool.and_eq_true, decide_eq_true_eq, bne_iff_ne]
      exact ⟨⟨⟨hlo, ha⟩, hv⟩, ⟨⟨by omega, hm.1.1.2⟩, hm.1.2⟩, hm.2⟩
    · subst h2
      simp only [Memory.wfFrom, Bool.and_eq_true, decide_eq_true_eq, bne_iff_ne]
      exact ⟨⟨⟨hlo, ha⟩, hv⟩, hm.2⟩
    · simp only [Memory.wfFrom, Bool.and_eq_true, decide_eq_true_eq, bne_iff_ne]
      exact ⟨hm.1, ih hm.2 (by omega)⟩

theorem wfFrom_erase {m : Memory} {lo : Nat} (a : Nat) (hm : Memory.wfFrom lo m = true) :
    Memory.wfFrom lo (Memory.erase m a) = true := by
  induction m generalizing lo with
  | nil => rfl
  | cons d m ih =>
    obtain ⟨b, w⟩ := d
    simp only [Memory.wfFrom, Bool.and_eq_true, decide_eq_true_eq, bne_iff_ne] at hm
    have hrest := ih hm.2
    simp only [Memory.erase, List.filter_cons] at hrest ⊢
    split_ifs with h
    · simp only [Memory.wfFrom, Bool.and_eq_true, decide_eq_true_eq, bne_iff_ne]
      exact ⟨hm.1, hrest⟩
    · exact wfFrom_mono (by omega) hrest

@[simp] theorem wf_nil : Memory.wf [] = true := rfl

/-- A store in bounds keeps the canonical form. -/
theorem wf_write {m : Memory} {a : Nat} (v : Byte) (hm : Memory.wf m = true) (ha : a < Config.memSize) :
    Memory.wf (Memory.write m a v) = true := by
  unfold Memory.write
  split_ifs with h
  · exact wfFrom_erase a hm
  · exact wfFrom_put hm (Nat.zero_le a) ha h

/-- A block store in bounds keeps the canonical form. -/
theorem wf_writeBytes (bs : List Byte) {m : Memory} {a : Nat} (hm : Memory.wf m = true)
    (ha : a + bs.length ≤ Config.memSize) : Memory.wf (Memory.writeBytes m a bs) = true := by
  induction bs generalizing m a with
  | nil => exact hm
  | cons v vs ih =>
    simp only [List.length_cons] at ha
    exact ih (wf_write v hm (by omega)) (by omega)

end MemoryLaws

/-- A byte read after a block store (R42, R43). -/
theorem State.readMem_storeBytes (s : State) (a : Nat) (bs : List Byte) (c : Nat) :
    (s.storeBytes a bs).readMem c =
      if a ≤ c ∧ c < a + bs.length then (bs[c - a]?).getD 0 else s.readMem c :=
  MemoryLaws.read_writeBytes bs s.mem a c

end Sys2Proof.Machine
end

