-- ==== Sys2Proof/Laws/State.lean ====
section
/-! SUPPORT. One lemma per field per update of State, so that no later proof unfolds a record update. -/

namespace Sys2Proof.Machine

variable (s : State)

/-! ### `State.setV` -/

theorem State.setV_v (r : Reg) (b : Byte) : (s.setV r b).v = s.v.set r b := rfl
@[simp] theorem State.setV_i (r : Reg) (b : Byte) : (s.setV r b).i = s.i := rfl
@[simp] theorem State.setV_pc (r : Reg) (b : Byte) : (s.setV r b).pc = s.pc := rfl
@[simp] theorem State.setV_stack (r : Reg) (b : Byte) : (s.setV r b).stack = s.stack := rfl
@[simp] theorem State.setV_dt (r : Reg) (b : Byte) : (s.setV r b).dt = s.dt := rfl
@[simp] theorem State.setV_st (r : Reg) (b : Byte) : (s.setV r b).st = s.st := rfl
@[simp] theorem State.setV_key (r : Reg) (b : Byte) : (s.setV r b).key = s.key := rfl
@[simp] theorem State.setV_mem (r : Reg) (b : Byte) : (s.setV r b).mem = s.mem := rfl
@[simp] theorem State.setV_fb (r : Reg) (b : Byte) : (s.setV r b).fb = s.fb := rfl
@[simp] theorem State.setV_halt (r : Reg) (b : Byte) : (s.setV r b).halt = s.halt := rfl
@[simp] theorem State.setV_err (r : Reg) (b : Byte) : (s.setV r b).err = s.err := rfl
@[simp] theorem State.setV_env (r : Reg) (b : Byte) : (s.setV r b).env = s.env := rfl
@[simp] theorem State.readMem_setV (r : Reg) (b : Byte) (c : Nat) : (s.setV r b).readMem c = s.readMem c := rfl

/-! ### `State.loadV` -/

theorem State.loadV_v (bs : List Byte) : (s.loadV bs).v = Vector.ofFn fun r => (bs[r.val]?).getD (s.getV r) := rfl
@[simp] theorem State.loadV_i (bs : List Byte) : (s.loadV bs).i = s.i := rfl
@[simp] theorem State.loadV_pc (bs : List Byte) : (s.loadV bs).pc = s.pc := rfl
@[simp] theorem State.loadV_stack (bs : List Byte) : (s.loadV bs).stack = s.stack := rfl
@[simp] theorem State.loadV_dt (bs : List Byte) : (s.loadV bs).dt = s.dt := rfl
@[simp] theorem State.loadV_st (bs : List Byte) : (s.loadV bs).st = s.st := rfl
@[simp] theorem State.loadV_key (bs : List Byte) : (s.loadV bs).key = s.key := rfl
@[simp] theorem State.loadV_mem (bs : List Byte) : (s.loadV bs).mem = s.mem := rfl
@[simp] theorem State.loadV_fb (bs : List Byte) : (s.loadV bs).fb = s.fb := rfl
@[simp] theorem State.loadV_halt (bs : List Byte) : (s.loadV bs).halt = s.halt := rfl
@[simp] theorem State.loadV_err (bs : List Byte) : (s.loadV bs).err = s.err := rfl
@[simp] theorem State.loadV_env (bs : List Byte) : (s.loadV bs).env = s.env := rfl
@[simp] theorem State.readMem_loadV (bs : List Byte) (c : Nat) : (s.loadV bs).readMem c = s.readMem c := rfl

/-! ### `State.setPc` -/

@[simp] theorem State.setPc_v (a : Word) : (s.setPc a).v = s.v := rfl
@[simp] theorem State.setPc_i (a : Word) : (s.setPc a).i = s.i := rfl
@[simp] theorem State.setPc_pc (a : Word) : (s.setPc a).pc = a := rfl
@[simp] theorem State.setPc_stack (a : Word) : (s.setPc a).stack = s.stack := rfl
@[simp] theorem State.setPc_dt (a : Word) : (s.setPc a).dt = s.dt := rfl
@[simp] theorem State.setPc_st (a : Word) : (s.setPc a).st = s.st := rfl
@[simp] theorem State.setPc_key (a : Word) : (s.setPc a).key = s.key := rfl
@[simp] theorem State.setPc_mem (a : Word) : (s.setPc a).mem = s.mem := rfl
@[simp] theorem State.setPc_fb (a : Word) : (s.setPc a).fb = s.fb := rfl
@[simp] theorem State.setPc_halt (a : Word) : (s.setPc a).halt = s.halt := rfl
@[simp] theorem State.setPc_err (a : Word) : (s.setPc a).err = s.err := rfl
@[simp] theorem State.setPc_env (a : Word) : (s.setPc a).env = s.env := rfl
@[simp] theorem State.getV_setPc (a : Word) (q : Reg) : (s.setPc a).getV q = s.getV q := rfl
@[simp] theorem State.readMem_setPc (a : Word) (c : Nat) : (s.setPc a).readMem c = s.readMem c := rfl

/-! ### `State.setI` -/

@[simp] theorem State.setI_v (a : Word) : (s.setI a).v = s.v := rfl
@[simp] theorem State.setI_i (a : Word) : (s.setI a).i = a := rfl
@[simp] theorem State.setI_pc (a : Word) : (s.setI a).pc = s.pc := rfl
@[simp] theorem State.setI_stack (a : Word) : (s.setI a).stack = s.stack := rfl
@[simp] theorem State.setI_dt (a : Word) : (s.setI a).dt = s.dt := rfl
@[simp] theorem State.setI_st (a : Word) : (s.setI a).st = s.st := rfl
@[simp] theorem State.setI_key (a : Word) : (s.setI a).key = s.key := rfl
@[simp] theorem State.setI_mem (a : Word) : (s.setI a).mem = s.mem := rfl
@[simp] theorem State.setI_fb (a : Word) : (s.setI a).fb = s.fb := rfl
@[simp] theorem State.setI_halt (a : Word) : (s.setI a).halt = s.halt := rfl
@[simp] theorem State.setI_err (a : Word) : (s.setI a).err = s.err := rfl
@[simp] theorem State.setI_env (a : Word) : (s.setI a).env = s.env := rfl
@[simp] theorem State.getV_setI (a : Word) (q : Reg) : (s.setI a).getV q = s.getV q := rfl
@[simp] theorem State.readMem_setI (a : Word) (c : Nat) : (s.setI a).readMem c = s.readMem c := rfl

/-! ### `State.setDt` -/

@[simp] theorem State.setDt_v (b : Byte) : (s.setDt b).v = s.v := rfl
@[simp] theorem State.setDt_i (b : Byte) : (s.setDt b).i = s.i := rfl
@[simp] theorem State.setDt_pc (b : Byte) : (s.setDt b).pc = s.pc := rfl
@[simp] theorem State.setDt_stack (b : Byte) : (s.setDt b).stack = s.stack := rfl
@[simp] theorem State.setDt_dt (b : Byte) : (s.setDt b).dt = b := rfl
@[simp] theorem State.setDt_st (b : Byte) : (s.setDt b).st = s.st := rfl
@[simp] theorem State.setDt_key (b : Byte) : (s.setDt b).key = s.key := rfl
@[simp] theorem State.setDt_mem (b : Byte) : (s.setDt b).mem = s.mem := rfl
@[simp] theorem State.setDt_fb (b : Byte) : (s.setDt b).fb = s.fb := rfl
@[simp] theorem State.setDt_halt (b : Byte) : (s.setDt b).halt = s.halt := rfl
@[simp] theorem State.setDt_err (b : Byte) : (s.setDt b).err = s.err := rfl
@[simp] theorem State.setDt_env (b : Byte) : (s.setDt b).env = s.env := rfl
@[simp] theorem State.getV_setDt (b : Byte) (q : Reg) : (s.setDt b).getV q = s.getV q := rfl
@[simp] theorem State.readMem_setDt (b : Byte) (c : Nat) : (s.setDt b).readMem c = s.readMem c := rfl

/-! ### `State.setSt` -/

@[simp] theorem State.setSt_v (b : Byte) : (s.setSt b).v = s.v := rfl
@[simp] theorem State.setSt_i (b : Byte) : (s.setSt b).i = s.i := rfl
@[simp] theorem State.setSt_pc (b : Byte) : (s.setSt b).pc = s.pc := rfl
@[simp] theorem State.setSt_stack (b : Byte) : (s.setSt b).stack = s.stack := rfl
@[simp] theorem State.setSt_dt (b : Byte) : (s.setSt b).dt = s.dt := rfl
@[simp] theorem State.setSt_st (b : Byte) : (s.setSt b).st = b := rfl
@[simp] theorem State.setSt_key (b : Byte) : (s.setSt b).key = s.key := rfl
@[simp] theorem State.setSt_mem (b : Byte) : (s.setSt b).mem = s.mem := rfl
@[simp] theorem State.setSt_fb (b : Byte) : (s.setSt b).fb = s.fb := rfl
@[simp] theorem State.setSt_halt (b : Byte) : (s.setSt b).halt = s.halt := rfl
@[simp] theorem State.setSt_err (b : Byte) : (s.setSt b).err = s.err := rfl
@[simp] theorem State.setSt_env (b : Byte) : (s.setSt b).env = s.env := rfl
@[simp] theorem State.getV_setSt (b : Byte) (q : Reg) : (s.setSt b).getV q = s.getV q := rfl
@[simp] theorem State.readMem_setSt (b : Byte) (c : Nat) : (s.setSt b).readMem c = s.readMem c := rfl

/-! ### `State.setKey` -/

@[simp] theorem State.setKey_v (k : Option KeyCode) : (s.setKey k).v = s.v := rfl
@[simp] theorem State.setKey_i (k : Option KeyCode) : (s.setKey k).i = s.i := rfl
@[simp] theorem State.setKey_pc (k : Option KeyCode) : (s.setKey k).pc = s.pc := rfl
@[simp] theorem State.setKey_stack (k : Option KeyCode) : (s.setKey k).stack = s.stack := rfl
@[simp] theorem State.setKey_dt (k : Option KeyCode) : (s.setKey k).dt = s.dt := rfl
@[simp] theorem State.setKey_st (k : Option KeyCode) : (s.setKey k).st = s.st := rfl
@[simp] theorem State.setKey_key (k : Option KeyCode) : (s.setKey k).key = k := rfl
@[simp] theorem State.setKey_mem (k : Option KeyCode) : (s.setKey k).mem = s.mem := rfl
@[simp] theorem State.setKey_fb (k : Option KeyCode) : (s.setKey k).fb = s.fb := rfl
@[simp] theorem State.setKey_halt (k : Option KeyCode) : (s.setKey k).halt = s.halt := rfl
@[simp] theorem State.setKey_err (k : Option KeyCode) : (s.setKey k).err = s.err := rfl
@[simp] theorem State.setKey_env (k : Option KeyCode) : (s.setKey k).env = s.env := rfl
@[simp] theorem State.getV_setKey (k : Option KeyCode) (q : Reg) : (s.setKey k).getV q = s.getV q := rfl
@[simp] theorem State.readMem_setKey (k : Option KeyCode) (c : Nat) : (s.setKey k).readMem c = s.readMem c := rfl

/-! ### `State.setFb` -/

@[simp] theorem State.setFb_v (f : FrameBuffer) : (s.setFb f).v = s.v := rfl
@[simp] theorem State.setFb_i (f : FrameBuffer) : (s.setFb f).i = s.i := rfl
@[simp] theorem State.setFb_pc (f : FrameBuffer) : (s.setFb f).pc = s.pc := rfl
@[simp] theorem State.setFb_stack (f : FrameBuffer) : (s.setFb f).stack = s.stack := rfl
@[simp] theorem State.setFb_dt (f : FrameBuffer) : (s.setFb f).dt = s.dt := rfl
@[simp] theorem State.setFb_st (f : FrameBuffer) : (s.setFb f).st = s.st := rfl
@[simp] theorem State.setFb_key (f : FrameBuffer) : (s.setFb f).key = s.key := rfl
@[simp] theorem State.setFb_mem (f : FrameBuffer) : (s.setFb f).mem = s.mem := rfl
@[simp] theorem State.setFb_fb (f : FrameBuffer) : (s.setFb f).fb = f := rfl
@[simp] theorem State.setFb_halt (f : FrameBuffer) : (s.setFb f).halt = s.halt := rfl
@[simp] theorem State.setFb_err (f : FrameBuffer) : (s.setFb f).err = s.err := rfl
@[simp] theorem State.setFb_env (f : FrameBuffer) : (s.setFb f).env = s.env := rfl
@[simp] theorem State.getV_setFb (f : FrameBuffer) (q : Reg) : (s.setFb f).getV q = s.getV q := rfl
@[simp] theorem State.readMem_setFb (f : FrameBuffer) (c : Nat) : (s.setFb f).readMem c = s.readMem c := rfl

/-! ### `State.advance` -/

@[simp] theorem State.advance_v : (s.advance).v = s.v := rfl
@[simp] theorem State.advance_i : (s.advance).i = s.i := rfl
@[simp] theorem State.advance_pc : (s.advance).pc = s.pc + 2 := rfl
@[simp] theorem State.advance_stack : (s.advance).stack = s.stack := rfl
@[simp] theorem State.advance_dt : (s.advance).dt = s.dt := rfl
@[simp] theorem State.advance_st : (s.advance).st = s.st := rfl
@[simp] theorem State.advance_key : (s.advance).key = s.key := rfl
@[simp] theorem State.advance_mem : (s.advance).mem = s.mem := rfl
@[simp] theorem State.advance_fb : (s.advance).fb = s.fb := rfl
@[simp] theorem State.advance_halt : (s.advance).halt = s.halt := rfl
@[simp] theorem State.advance_err : (s.advance).err = s.err := rfl
@[simp] theorem State.advance_env : (s.advance).env = s.env := rfl
@[simp] theorem State.getV_advance (q : Reg) : (s.advance).getV q = s.getV q := rfl
@[simp] theorem State.readMem_advance (c : Nat) : (s.advance).readMem c = s.readMem c := rfl

/-! ### `State.skipIf` -/

@[simp] theorem State.skipIf_v (b : Bool) : (s.skipIf b).v = s.v := rfl
@[simp] theorem State.skipIf_i (b : Bool) : (s.skipIf b).i = s.i := rfl
@[simp] theorem State.skipIf_pc (b : Bool) : (s.skipIf b).pc = if b then s.pc + 4 else s.pc + 2 := rfl
@[simp] theorem State.skipIf_stack (b : Bool) : (s.skipIf b).stack = s.stack := rfl
@[simp] theorem State.skipIf_dt (b : Bool) : (s.skipIf b).dt = s.dt := rfl
@[simp] theorem State.skipIf_st (b : Bool) : (s.skipIf b).st = s.st := rfl
@[simp] theorem State.skipIf_key (b : Bool) : (s.skipIf b).key = s.key := rfl
@[simp] theorem State.skipIf_mem (b : Bool) : (s.skipIf b).mem = s.mem := rfl
@[simp] theorem State.skipIf_fb (b : Bool) : (s.skipIf b).fb = s.fb := rfl
@[simp] theorem State.skipIf_halt (b : Bool) : (s.skipIf b).halt = s.halt := rfl
@[simp] theorem State.skipIf_err (b : Bool) : (s.skipIf b).err = s.err := rfl
@[simp] theorem State.skipIf_env (b : Bool) : (s.skipIf b).env = s.env := rfl
@[simp] theorem State.getV_skipIf (b : Bool) (q : Reg) : (s.skipIf b).getV q = s.getV q := rfl
@[simp] theorem State.readMem_skipIf (b : Bool) (c : Nat) : (s.skipIf b).readMem c = s.readMem c := rfl

/-! ### `State.callTo` -/

@[simp] theorem State.callTo_v (a : Word) : (s.callTo a).v = s.v := rfl
@[simp] theorem State.callTo_i (a : Word) : (s.callTo a).i = s.i := rfl
@[simp] theorem State.callTo_pc (a : Word) : (s.callTo a).pc = a := rfl
@[simp] theorem State.callTo_stack (a : Word) : (s.callTo a).stack = (s.pc + 2) :: s.stack := rfl
@[simp] theorem State.callTo_dt (a : Word) : (s.callTo a).dt = s.dt := rfl
@[simp] theorem State.callTo_st (a : Word) : (s.callTo a).st = s.st := rfl
@[simp] theorem State.callTo_key (a : Word) : (s.callTo a).key = s.key := rfl
@[simp] theorem State.callTo_mem (a : Word) : (s.callTo a).mem = s.mem := rfl
@[simp] theorem State.callTo_fb (a : Word) : (s.callTo a).fb = s.fb := rfl
@[simp] theorem State.callTo_halt (a : Word) : (s.callTo a).halt = s.halt := rfl
@[simp] theorem State.callTo_err (a : Word) : (s.callTo a).err = s.err := rfl
@[simp] theorem State.callTo_env (a : Word) : (s.callTo a).env = s.env := rfl
@[simp] theorem State.getV_callTo (a : Word) (q : Reg) : (s.callTo a).getV q = s.getV q := rfl
@[simp] theorem State.readMem_callTo (a : Word) (c : Nat) : (s.callTo a).readMem c = s.readMem c := rfl

/-! ### `State.returnTo` -/

@[simp] theorem State.returnTo_v (a : Word) (l : List Word) : (s.returnTo a l).v = s.v := rfl
@[simp] theorem State.returnTo_i (a : Word) (l : List Word) : (s.returnTo a l).i = s.i := rfl
@[simp] theorem State.returnTo_pc (a : Word) (l : List Word) : (s.returnTo a l).pc = a := rfl
@[simp] theorem State.returnTo_stack (a : Word) (l : List Word) : (s.returnTo a l).stack = l := rfl
@[simp] theorem State.returnTo_dt (a : Word) (l : List Word) : (s.returnTo a l).dt = s.dt := rfl
@[simp] theorem State.returnTo_st (a : Word) (l : List Word) : (s.returnTo a l).st = s.st := rfl
@[simp] theorem State.returnTo_key (a : Word) (l : List Word) : (s.returnTo a l).key = s.key := rfl
@[simp] theorem State.returnTo_mem (a : Word) (l : List Word) : (s.returnTo a l).mem = s.mem := rfl
@[simp] theorem State.returnTo_fb (a : Word) (l : List Word) : (s.returnTo a l).fb = s.fb := rfl
@[simp] theorem State.returnTo_halt (a : Word) (l : List Word) : (s.returnTo a l).halt = s.halt := rfl
@[simp] theorem State.returnTo_err (a : Word) (l : List Word) : (s.returnTo a l).err = s.err := rfl
@[simp] theorem State.returnTo_env (a : Word) (l : List Word) : (s.returnTo a l).env = s.env := rfl
@[simp] theorem State.getV_returnTo (a : Word) (l : List Word) (q : Reg) : (s.returnTo a l).getV q = s.getV q := rfl
@[simp] theorem State.readMem_returnTo (a : Word) (l : List Word) (c : Nat) : (s.returnTo a l).readMem c = s.readMem c := rfl

/-! ### `State.storeBytes` -/

@[simp] theorem State.storeBytes_v (a : Nat) (bs : List Byte) : (s.storeBytes a bs).v = s.v := rfl
@[simp] theorem State.storeBytes_i (a : Nat) (bs : List Byte) : (s.storeBytes a bs).i = s.i := rfl
@[simp] theorem State.storeBytes_pc (a : Nat) (bs : List Byte) : (s.storeBytes a bs).pc = s.pc := rfl
@[simp] theorem State.storeBytes_stack (a : Nat) (bs : List Byte) : (s.storeBytes a bs).stack = s.stack := rfl
@[simp] theorem State.storeBytes_dt (a : Nat) (bs : List Byte) : (s.storeBytes a bs).dt = s.dt := rfl
@[simp] theorem State.storeBytes_st (a : Nat) (bs : List Byte) : (s.storeBytes a bs).st = s.st := rfl
@[simp] theorem State.storeBytes_key (a : Nat) (bs : List Byte) : (s.storeBytes a bs).key = s.key := rfl
@[simp] theorem State.storeBytes_mem (a : Nat) (bs : List Byte) : (s.storeBytes a bs).mem = s.mem.writeBytes a bs := rfl
@[simp] theorem State.storeBytes_fb (a : Nat) (bs : List Byte) : (s.storeBytes a bs).fb = s.fb := rfl
@[simp] theorem State.storeBytes_halt (a : Nat) (bs : List Byte) : (s.storeBytes a bs).halt = s.halt := rfl
@[simp] theorem State.storeBytes_err (a : Nat) (bs : List Byte) : (s.storeBytes a bs).err = s.err := rfl
@[simp] theorem State.storeBytes_env (a : Nat) (bs : List Byte) : (s.storeBytes a bs).env = s.env := rfl
@[simp] theorem State.getV_storeBytes (a : Nat) (bs : List Byte) (q : Reg) : (s.storeBytes a bs).getV q = s.getV q := rfl

/-! ### `State.rndUsed` -/

@[simp] theorem State.rndUsed_v : (s.rndUsed).v = s.v := rfl
@[simp] theorem State.rndUsed_i : (s.rndUsed).i = s.i := rfl
@[simp] theorem State.rndUsed_pc : (s.rndUsed).pc = s.pc := rfl
@[simp] theorem State.rndUsed_stack : (s.rndUsed).stack = s.stack := rfl
@[simp] theorem State.rndUsed_dt : (s.rndUsed).dt = s.dt := rfl
@[simp] theorem State.rndUsed_st : (s.rndUsed).st = s.st := rfl
@[simp] theorem State.rndUsed_key : (s.rndUsed).key = s.key := rfl
@[simp] theorem State.rndUsed_mem : (s.rndUsed).mem = s.mem := rfl
@[simp] theorem State.rndUsed_fb : (s.rndUsed).fb = s.fb := rfl
@[simp] theorem State.rndUsed_halt : (s.rndUsed).halt = s.halt := rfl
@[simp] theorem State.rndUsed_err : (s.rndUsed).err = s.err := rfl
@[simp] theorem State.rndUsed_env : (s.rndUsed).env = { s.env with rndCount := s.env.rndCount + 1 } := rfl
@[simp] theorem State.getV_rndUsed (q : Reg) : (s.rndUsed).getV q = s.getV q := rfl
@[simp] theorem State.readMem_rndUsed (c : Nat) : (s.rndUsed).readMem c = s.readMem c := rfl

/-! ### `State.leaveBoot` -/

@[simp] theorem State.leaveBoot_v : (s.leaveBoot).v = s.v := rfl
@[simp] theorem State.leaveBoot_i : (s.leaveBoot).i = s.i := rfl
@[simp] theorem State.leaveBoot_pc : (s.leaveBoot).pc = s.pc := rfl
@[simp] theorem State.leaveBoot_stack : (s.leaveBoot).stack = s.stack := rfl
@[simp] theorem State.leaveBoot_dt : (s.leaveBoot).dt = s.dt := rfl
@[simp] theorem State.leaveBoot_st : (s.leaveBoot).st = s.st := rfl
@[simp] theorem State.leaveBoot_key : (s.leaveBoot).key = s.key := rfl
@[simp] theorem State.leaveBoot_mem : (s.leaveBoot).mem = s.mem := rfl
@[simp] theorem State.leaveBoot_fb : (s.leaveBoot).fb = s.fb := rfl
@[simp] theorem State.leaveBoot_halt : (s.leaveBoot).halt = s.halt := rfl
@[simp] theorem State.leaveBoot_err : (s.leaveBoot).err = s.err := rfl
@[simp] theorem State.leaveBoot_env : (s.leaveBoot).env = { s.env with booting := false } := rfl
@[simp] theorem State.getV_leaveBoot (q : Reg) : (s.leaveBoot).getV q = s.getV q := rfl
@[simp] theorem State.readMem_leaveBoot (c : Nat) : (s.leaveBoot).readMem c = s.readMem c := rfl

/-! ### `State.offerRnd` -/

@[simp] theorem State.offerRnd_v (b : Option Byte) : (s.offerRnd b).v = s.v := rfl
@[simp] theorem State.offerRnd_i (b : Option Byte) : (s.offerRnd b).i = s.i := rfl
@[simp] theorem State.offerRnd_pc (b : Option Byte) : (s.offerRnd b).pc = s.pc := rfl
@[simp] theorem State.offerRnd_stack (b : Option Byte) : (s.offerRnd b).stack = s.stack := rfl
@[simp] theorem State.offerRnd_dt (b : Option Byte) : (s.offerRnd b).dt = s.dt := rfl
@[simp] theorem State.offerRnd_st (b : Option Byte) : (s.offerRnd b).st = s.st := rfl
@[simp] theorem State.offerRnd_key (b : Option Byte) : (s.offerRnd b).key = s.key := rfl
@[simp] theorem State.offerRnd_mem (b : Option Byte) : (s.offerRnd b).mem = s.mem := rfl
@[simp] theorem State.offerRnd_fb (b : Option Byte) : (s.offerRnd b).fb = s.fb := rfl
@[simp] theorem State.offerRnd_halt (b : Option Byte) : (s.offerRnd b).halt = s.halt := rfl
@[simp] theorem State.offerRnd_err (b : Option Byte) : (s.offerRnd b).err = s.err := rfl
@[simp] theorem State.offerRnd_env (b : Option Byte) : (s.offerRnd b).env = { s.env with rndIn := b } := rfl
@[simp] theorem State.getV_offerRnd (b : Option Byte) (q : Reg) : (s.offerRnd b).getV q = s.getV q := rfl
@[simp] theorem State.readMem_offerRnd (b : Option Byte) (c : Nat) : (s.offerRnd b).readMem c = s.readMem c := rfl

/-! ### `State.takeEvent` -/

@[simp] theorem State.takeEvent_v : (s.takeEvent).v = s.v := rfl
@[simp] theorem State.takeEvent_i : (s.takeEvent).i = s.i := rfl
@[simp] theorem State.takeEvent_pc : (s.takeEvent).pc = s.pc := rfl
@[simp] theorem State.takeEvent_stack : (s.takeEvent).stack = s.stack := rfl
@[simp] theorem State.takeEvent_dt : (s.takeEvent).dt = s.dt := rfl
@[simp] theorem State.takeEvent_st : (s.takeEvent).st = s.st := rfl
@[simp] theorem State.takeEvent_key : (s.takeEvent).key = s.key := rfl
@[simp] theorem State.takeEvent_mem : (s.takeEvent).mem = s.mem := rfl
@[simp] theorem State.takeEvent_fb : (s.takeEvent).fb = s.fb := rfl
@[simp] theorem State.takeEvent_halt : (s.takeEvent).halt = s.halt := rfl
@[simp] theorem State.takeEvent_err : (s.takeEvent).err = s.err := rfl
@[simp] theorem State.takeEvent_env : (s.takeEvent).env = s.env.take := rfl
@[simp] theorem State.getV_takeEvent (q : Reg) : (s.takeEvent).getV q = s.getV q := rfl
@[simp] theorem State.readMem_takeEvent (c : Nat) : (s.takeEvent).readMem c = s.readMem c := rfl

/-! ### `State.withSchedule` -/

@[simp] theorem State.withSchedule_v (es : List Event) : (s.withSchedule es).v = s.v := rfl
@[simp] theorem State.withSchedule_i (es : List Event) : (s.withSchedule es).i = s.i := rfl
@[simp] theorem State.withSchedule_pc (es : List Event) : (s.withSchedule es).pc = s.pc := rfl
@[simp] theorem State.withSchedule_stack (es : List Event) : (s.withSchedule es).stack = s.stack := rfl
@[simp] theorem State.withSchedule_dt (es : List Event) : (s.withSchedule es).dt = s.dt := rfl
@[simp] theorem State.withSchedule_st (es : List Event) : (s.withSchedule es).st = s.st := rfl
@[simp] theorem State.withSchedule_key (es : List Event) : (s.withSchedule es).key = s.key := rfl
@[simp] theorem State.withSchedule_mem (es : List Event) : (s.withSchedule es).mem = s.mem := rfl
@[simp] theorem State.withSchedule_fb (es : List Event) : (s.withSchedule es).fb = s.fb := rfl
@[simp] theorem State.withSchedule_halt (es : List Event) : (s.withSchedule es).halt = s.halt := rfl
@[simp] theorem State.withSchedule_err (es : List Event) : (s.withSchedule es).err = s.err := rfl
@[simp] theorem State.withSchedule_env (es : List Event) : (s.withSchedule es).env = { s.env with schedule := es } := rfl
@[simp] theorem State.getV_withSchedule (es : List Event) (q : Reg) : (s.withSchedule es).getV q = s.getV q := rfl
@[simp] theorem State.readMem_withSchedule (es : List Event) (c : Nat) : (s.withSchedule es).readMem c = s.readMem c := rfl

/-! ### Taking a fatal condition -/

@[simp] theorem raiseWith_v (c : Condition) (w : Option Word) : (raiseWith c w s).v = s.v := rfl
@[simp] theorem raiseWith_i (c : Condition) (w : Option Word) : (raiseWith c w s).i = s.i := rfl
@[simp] theorem raiseWith_pc (c : Condition) (w : Option Word) : (raiseWith c w s).pc = s.pc := rfl
@[simp] theorem raiseWith_stack (c : Condition) (w : Option Word) : (raiseWith c w s).stack = s.stack := rfl
@[simp] theorem raiseWith_dt (c : Condition) (w : Option Word) : (raiseWith c w s).dt = s.dt := rfl
@[simp] theorem raiseWith_st (c : Condition) (w : Option Word) : (raiseWith c w s).st = s.st := rfl
@[simp] theorem raiseWith_key (c : Condition) (w : Option Word) : (raiseWith c w s).key = s.key := rfl
@[simp] theorem raiseWith_mem (c : Condition) (w : Option Word) : (raiseWith c w s).mem = s.mem := rfl
@[simp] theorem raiseWith_fb (c : Condition) (w : Option Word) : (raiseWith c w s).fb = s.fb := rfl
@[simp] theorem raiseWith_halt (c : Condition) (w : Option Word) : (raiseWith c w s).halt = true := rfl
@[simp] theorem raiseWith_err (c : Condition) (w : Option Word) : (raiseWith c w s).err = errorOf c w s := rfl
@[simp] theorem raiseWith_env (c : Condition) (w : Option Word) : (raiseWith c w s).env = s.env := rfl
@[simp] theorem getV_raiseWith (c : Condition) (w : Option Word) (q : Reg) : (raiseWith c w s).getV q = s.getV q := rfl
@[simp] theorem readMem_raiseWith (c : Condition) (w : Option Word) (a : Nat) : (raiseWith c w s).readMem a = s.readMem a := rfl

@[simp] theorem raise_v (c : Condition) : (raise c s).v = s.v := rfl
@[simp] theorem raise_i (c : Condition) : (raise c s).i = s.i := rfl
@[simp] theorem raise_pc (c : Condition) : (raise c s).pc = s.pc := rfl
@[simp] theorem raise_stack (c : Condition) : (raise c s).stack = s.stack := rfl
@[simp] theorem raise_dt (c : Condition) : (raise c s).dt = s.dt := rfl
@[simp] theorem raise_st (c : Condition) : (raise c s).st = s.st := rfl
@[simp] theorem raise_key (c : Condition) : (raise c s).key = s.key := rfl
@[simp] theorem raise_mem (c : Condition) : (raise c s).mem = s.mem := rfl
@[simp] theorem raise_fb (c : Condition) : (raise c s).fb = s.fb := rfl
@[simp] theorem raise_halt (c : Condition) : (raise c s).halt = true := rfl
@[simp] theorem raise_err (c : Condition) : (raise c s).err = errorOf c (fetchedWord s) s := rfl
@[simp] theorem raise_env (c : Condition) : (raise c s).env = s.env := rfl
@[simp] theorem getV_raise (c : Condition) (q : Reg) : (raise c s).getV q = s.getV q := rfl
@[simp] theorem readMem_raise (c : Condition) (a : Nat) : (raise c s).readMem a = s.readMem a := rfl

/-! ### General registers -/

theorem State.getV_setV (r q : Reg) (b : Byte) : (s.setV r b).getV q = if q = r then b else s.getV q := by
  simp only [State.getV, State.setV_v, Fin.getElem_fin, Vector.getElem_set, Fin.ext_iff, eq_comm]

@[simp] theorem State.getV_setV_same (r : Reg) (b : Byte) : (s.setV r b).getV r = b := by
  simp [State.getV_setV]

theorem State.getV_setV_ne (r q : Reg) (b : Byte) (h : q ≠ r) : (s.setV r b).getV q = s.getV q := by
  simp [State.getV_setV, h]

@[simp] theorem State.getV_loadV (bs : List Byte) (r : Reg) :
    (s.loadV bs).getV r = (bs[r.val]?).getD (s.getV r) := by
  simp [State.getV, State.loadV_v]

theorem State.getV_congr (t : State) (h : t.v = s.v) (r : Reg) : t.getV r = s.getV r := by
  rw [State.getV, State.getV, h]

theorem State.readMem_congr (t : State) (h : t.mem = s.mem) (a : Nat) : t.readMem a = s.readMem a := by
  rw [State.readMem, State.readMem, h]

/-! ### Flags -/

@[simp] theorem State.setFlag_eq (b : Byte) : s.setFlag b = s.setV VF b := rfl

/-- What the five flag-writing ALU instructions leave in a register (R105): the flag in `VF` whatever
the destination, the result in `Vx` unless `x` is `VF`. -/
theorem State.getV_setResultFlag (x q : Reg) (b : Byte) (c : Bool) :
    (s.setResultFlag x b c).getV q = if q = VF then flagByte c else if q = x then b else s.getV q := by
  simp [State.setResultFlag, State.getV_setV]

/-- What `8xy4` leaves in a register (R106). -/
theorem State.getV_setResultCarry (x q : Reg) (b : Byte) (c : Bool) :
    (s.setResultCarry x b c).getV q = if q = VF ∧ c = true then 1 else if q = x then b else s.getV q := by
  cases c <;> simp [State.setResultCarry, State.getV_setV]

@[simp] theorem State.setResultFlag_i (x : Reg) (b : Byte) (c : Bool) : (s.setResultFlag x b c).i = s.i := rfl
@[simp] theorem State.setResultFlag_pc (x : Reg) (b : Byte) (c : Bool) : (s.setResultFlag x b c).pc = s.pc := rfl
@[simp] theorem State.setResultFlag_stack (x : Reg) (b : Byte) (c : Bool) : (s.setResultFlag x b c).stack = s.stack := rfl
@[simp] theorem State.setResultFlag_dt (x : Reg) (b : Byte) (c : Bool) : (s.setResultFlag x b c).dt = s.dt := rfl
@[simp] theorem State.setResultFlag_st (x : Reg) (b : Byte) (c : Bool) : (s.setResultFlag x b c).st = s.st := rfl
@[simp] theorem State.setResultFlag_key (x : Reg) (b : Byte) (c : Bool) : (s.setResultFlag x b c).key = s.key := rfl
@[simp] theorem State.setResultFlag_mem (x : Reg) (b : Byte) (c : Bool) : (s.setResultFlag x b c).mem = s.mem := rfl
@[simp] theorem State.setResultFlag_fb (x : Reg) (b : Byte) (c : Bool) : (s.setResultFlag x b c).fb = s.fb := rfl
@[simp] theorem State.setResultFlag_halt (x : Reg) (b : Byte) (c : Bool) : (s.setResultFlag x b c).halt = s.halt := rfl
@[simp] theorem State.setResultFlag_err (x : Reg) (b : Byte) (c : Bool) : (s.setResultFlag x b c).err = s.err := rfl
@[simp] theorem State.setResultFlag_env (x : Reg) (b : Byte) (c : Bool) : (s.setResultFlag x b c).env = s.env := rfl
@[simp] theorem State.readMem_setResultFlag (x : Reg) (b : Byte) (c : Bool) (a : Nat) : (s.setResultFlag x b c).readMem a = s.readMem a := rfl
@[simp] theorem State.setResultCarry_i (x : Reg) (b : Byte) (c : Bool) : (s.setResultCarry x b c).i = s.i := by
  cases c <;> rfl
@[simp] theorem State.setResultCarry_pc (x : Reg) (b : Byte) (c : Bool) : (s.setResultCarry x b c).pc = s.pc := by
  cases c <;> rfl
@[simp] theorem State.setResultCarry_stack (x : Reg) (b : Byte) (c : Bool) : (s.setResultCarry x b c).stack = s.stack := by
  cases c <;> rfl
@[simp] theorem State.setResultCarry_dt (x : Reg) (b : Byte) (c : Bool) : (s.setResultCarry x b c).dt = s.dt := by
  cases c <;> rfl
@[simp] theorem State.setResultCarry_st (x : Reg) (b : Byte) (c : Bool) : (s.setResultCarry x b c).st = s.st := by
  cases c <;> rfl
@[simp] theorem State.setResultCarry_key (x : Reg) (b : Byte) (c : Bool) : (s.setResultCarry x b c).key = s.key := by
  cases c <;> rfl
@[simp] theorem State.setResultCarry_mem (x : Reg) (b : Byte) (c : Bool) : (s.setResultCarry x b c).mem = s.mem := by
  cases c <;> rfl
@[simp] theorem State.setResultCarry_fb (x : Reg) (b : Byte) (c : Bool) : (s.setResultCarry x b c).fb = s.fb := by
  cases c <;> rfl
@[simp] theorem State.setResultCarry_halt (x : Reg) (b : Byte) (c : Bool) : (s.setResultCarry x b c).halt = s.halt := by
  cases c <;> rfl
@[simp] theorem State.setResultCarry_err (x : Reg) (b : Byte) (c : Bool) : (s.setResultCarry x b c).err = s.err := by
  cases c <;> rfl
@[simp] theorem State.setResultCarry_env (x : Reg) (b : Byte) (c : Bool) : (s.setResultCarry x b c).env = s.env := by
  cases c <;> rfl
@[simp] theorem State.readMem_setResultCarry (x : Reg) (b : Byte) (c : Bool) (a : Nat) : (s.setResultCarry x b c).readMem a = s.readMem a := by
  cases c <;> rfl

/-! ### The host's sequence of events (log 9, 33) -/

@[simp] theorem Env.take_tail (e : Env) : e.take.tail = e.tail := by
  unfold Env.take
  split <;> rfl
@[simp] theorem Env.take_booting (e : Env) : e.take.booting = e.booting := by
  unfold Env.take
  split <;> rfl
@[simp] theorem Env.take_rndIn (e : Env) : e.take.rndIn = e.rndIn := by
  unfold Env.take
  split <;> rfl
@[simp] theorem Env.take_rndCount (e : Env) : e.take.rndCount = e.rndCount := by
  unfold Env.take
  split <;> rfl

/-- Only the model's own step takes nothing from the host's sequence. -/
theorem State.takeEvent_of_none {s : State} (h : s.pendingEvent = none) : s.takeEvent = s := by
  have : s.env.take = s.env := by
    unfold State.pendingEvent Env.pending at h
    unfold Env.take
    split at h <;> simp_all
  rw [State.takeEvent, this]

theorem State.pendingEvent_queued {s : State} {e : Event} {rest : List Event}
    (h : s.env.schedule = e :: rest) : s.pendingEvent = some e := by
  simp only [State.pendingEvent, Env.pending, h]

theorem State.takeEvent_queued {s : State} {e : Event} {rest : List Event}
    (h : s.env.schedule = e :: rest) : s.takeEvent = s.withSchedule rest := by
  simp only [State.takeEvent, Env.take, h, State.withSchedule]

end Sys2Proof.Machine
end

