-- ==== Sys2Proof/Laws/Ops.lean ====
section
/-! SUPPORT. One lemma for each shared operation that says all it can do: the range check, the fetch, the
range of a placed instruction, operands and flags as numbers. -/

namespace Sys2Proof.Machine

/-! ### The range check (R45) -/

theorem outOfRange_iff (base k : Nat) : OutOfRange base k ↔ 0 < k ∧ 4096 ≤ base + k - 1 := Iff.rfl

theorem withRange_in {base k : Nat} (s effect : State) (h : k = 0 ∨ base + k - 1 < Config.memSize) :
    withRange base k s effect = effect := by
  rw [withRange, if_neg]
  rintro ⟨h1, h2⟩
  omega

theorem withRange_out {base k : Nat} (s effect : State) (h0 : 0 < k) (h : Config.memSize ≤ base + k - 1) :
    withRange base k s effect = raise (.memoryOutOfBounds (max base Config.memSize)) s :=
  if_pos ⟨h0, h⟩

/-- All a range check can do: the effect in range, or the raised state out of range. -/
theorem withRange_cases (base k : Nat) (s effect : State) :
    (¬OutOfRange base k ∧ withRange base k s effect = effect) ∨
    (OutOfRange base k ∧ withRange base k s effect =
      raise (.memoryOutOfBounds (max base Config.memSize)) s) := by
  by_cases h : OutOfRange base k
  · exact .inr ⟨h, if_pos h⟩
  · exact .inl ⟨h, if_neg h⟩

/-! ### Fetch (R81) -/

theorem fetch_in {s : State} (h : s.pc.toNat + 1 < Config.memSize) :
    fetch s = .ok (s.readMem s.pc.toNat ++ s.readMem (s.pc.toNat + 1)) := by
  rw [fetch, if_neg (by omega), if_neg (by omega)]

theorem fetch_out {s : State} (h : Config.memSize ≤ s.pc.toNat + 1) :
    fetch s = .error (max s.pc.toNat Config.memSize) := by
  rw [fetch]
  by_cases h1 : Config.memSize ≤ s.pc.toNat
  · rw [if_pos h1, Nat.max_eq_left h1]
  · rw [if_neg h1, if_pos h, Nat.max_eq_right (by omega)]
    congr 1
    omega

theorem fetchedWord_in {s : State} (h : s.pc.toNat + 1 < Config.memSize) :
    fetchedWord s = some (s.readMem s.pc.toNat ++ s.readMem (s.pc.toNat + 1)) := by
  rw [fetchedWord, fetch_in h]

theorem fetchedWord_out {s : State} (h : Config.memSize ≤ s.pc.toNat + 1) : fetchedWord s = none := by
  rw [fetchedWord, fetch_out h]

/-- The record of a condition raised by an instruction whose word was fetched (R24, R155). -/
theorem errorOf_fetched {s : State} (c : Condition) (h : s.pc.toNat + 1 < Config.memSize) :
    errorOf c (fetchedWord s) s =
      ⟨c.code, s.pc, true, s.readMem s.pc.toNat ++ s.readMem (s.pc.toNat + 1), c.addr⟩ := by
  rw [fetchedWord_in h]
  rfl

theorem Condition.code_ne_none (c : Condition) : c.code ≠ .none := by
  cases c <;> simp [Condition.code]

/-! ### Operands and flags as numbers -/

@[simp] theorem toNat_addr12 (nnn : BitVec 12) : (addr12 nnn).toNat = nnn.toNat := by
  have := nnn.isLt
  simp only [addr12, BitVec.toNat_setWidth]
  omega

@[simp] theorem toNat_zextByte (b : Byte) : (zextByte b).toNat = b.toNat := by
  have := b.isLt
  simp only [zextByte, BitVec.toNat_setWidth]
  omega

theorem toNat_glyphAddr (b : Byte) : (glyphAddr b).toNat = b.toNat * 5 := by
  have := b.isLt
  simp only [glyphAddr, BitVec.toNat_ofNat, Config.fontBase, Config.glyphLen]
  omega

@[simp] theorem toNat_flagByte (c : Bool) : (flagByte c).toNat = if c then 1 else 0 := by
  cases c <;> rfl

theorem State.advance_toNat (s : State) : s.advance.pc.toNat = (s.pc.toNat + 2) % 65536 := by
  rw [State.advance_pc, BitVec.toNat_add]
  rfl

theorem State.skipIf_toNat (s : State) (c : Bool) :
    (s.skipIf c).pc.toNat = (s.pc.toNat + if c then 4 else 2) % 65536 := by
  cases c <;> rw [State.skipIf_pc] <;> simp [BitVec.toNat_add]

@[simp] theorem length_bcdDigits (b : Byte) : (bcdDigits b).length = 3 := rfl

@[simp] theorem State.length_blockOfV (s : State) (x : Reg) : (s.blockOfV x).length = x.val + 1 := by
  have := x.isLt
  simp only [State.blockOfV, blockLen, List.length_take, Vector.length_toList]
  omega

theorem State.getElem?_blockOfV (s : State) (x r : Reg) (h : r ≤ x) :
    (s.blockOfV x)[r.val]? = some (s.getV r) := by
  have hr : r.val < blockLen x := Nat.lt_succ_of_le h
  rw [State.blockOfV, List.getElem?_take_of_lt hr]
  simp [State.getV]

theorem State.getElem?_blockAtI (s : State) (k j : Nat) :
    (s.blockAtI k)[j]? = if j < k then some (s.readMem (s.i.toNat + j)) else none :=
  MemoryLaws.getElem?_readBytes s.mem s.base k j

/-- The key test on numbers (R20): the observed code is the whole byte. -/
theorem State.keyPressed_iff (s : State) (v : Byte) :
    s.keyPressed v = true ↔ s.key.map BitVec.toNat = some v.toNat := by
  unfold State.keyPressed
  cases s.key with
  | none => simp
  | some k =>
    have := k.isLt
    simp only [beq_iff_eq, Option.map_some, Option.some.injEq, ← BitVec.toNat_inj,
      BitVec.toNat_setWidth]
    rw [Nat.mod_eq_of_lt (by omega)]

end Sys2Proof.Machine
end

