-- ==== Sys2Proof/Laws/Display.lean ====
section
/-! SUPPORT. What drawing does to the display: one cell after a flip, one row, a whole sprite
(44_display.md R127, R130, R134). -/

namespace Sys2Proof.Machine

@[simp] theorem FrameBuffer.get_blank (x : Fin Config.width) (y : Fin Config.height) :
    FrameBuffer.blank.get x y = false := by
  simp [FrameBuffer.get, FrameBuffer.blank]

theorem FrameBuffer.get_flip (fb : FrameBuffer) (x x' : Fin Config.width) (y y' : Fin Config.height) :
    (fb.flip x y).get x' y' = if x' = x ∧ y' = y then !fb.get x y else fb.get x' y' := by
  by_cases hy : y' = y
  · subst hy
    by_cases hx : x' = x
    · subst hx
      simp [FrameBuffer.get, FrameBuffer.flip]
    · have hx' : x.val ≠ x'.val := fun h => hx (Fin.ext h.symm)
      simp [FrameBuffer.get, FrameBuffer.flip, hx, Vector.getElem_set_ne _ _ hx']
  · have hy' : y.val ≠ y'.val := fun h => hy (Fin.ext h.symm)
    simp [FrameBuffer.get, FrameBuffer.flip, hy, Vector.getElem_set_ne _ _ hy']

/-- Displays with the same cells are the same display. -/
theorem FrameBuffer.ext_get {f g : FrameBuffer} (h : ∀ x y, f.get x y = g.get x y) : f = g := by
  apply Vector.ext
  intro j hj
  apply Vector.ext
  intro k hk
  exact h ⟨k, hk⟩ ⟨j, hj⟩

/-! ### Wrapped coordinates (R129) -/

theorem wrapX_eq_iff (c : Fin Config.width) (p : Nat) : c = wrapX p ↔ c.val = p % 64 := by
  rw [Fin.ext_iff]
  rfl

theorem wrapY_eq_iff (r : Fin Config.height) (p : Nat) : r = wrapY p ↔ r.val = p % 32 := by
  rw [Fin.ext_iff]
  rfl

/-! ### One row (R134) -/

/-- Column `c` lies under one of the first `m` bits of a row byte drawn from column `px`. -/
def RowHit (b : Byte) (px m : Nat) (c : Fin Config.width) : Prop :=
  ∃ k, k < m ∧ b.getLsbD (7 - k) = true ∧ c = wrapX (px + k)

theorem rowHit_succ (b : Byte) (px m : Nat) (c : Fin Config.width) :
    RowHit b px (m + 1) c ↔ RowHit b px m c ∨ (b.getLsbD (7 - m) = true ∧ c = wrapX (px + m)) := by
  constructor
  · rintro ⟨k, hk, hb, hc⟩
    by_cases h : k = m
    · subst h
      exact .inr ⟨hb, hc⟩
    · exact .inl ⟨k, by omega, hb, hc⟩
  · rintro (⟨k, hk, hb, hc⟩ | ⟨hb, hc⟩)
    · exact ⟨k, by omega, hb, hc⟩
    · exact ⟨m, by omega, hb, hc⟩

/-- No pixel of a row is touched twice (R130). -/
theorem not_rowHit_next (b : Byte) (px m : Nat) (hm : m < 8) : ¬RowHit b px m (wrapX (px + m)) := by
  rintro ⟨k, hk, -, hc⟩
  rw [wrapX_eq_iff] at hc
  have h : (px + m) % 64 = (px + k) % 64 := hc
  omega

/-- The first `m` bits of a row drawn: cells by exclusive or, collision by a shared set pixel (R127, R130). -/
theorem drawBits_spec (b : Byte) (px py : Nat) (fb : FrameBuffer) (m : Nat) (hm : m ≤ 8) :
    (∀ c r, ((List.range m).foldl (drawBit b px py) (fb, false)).1.get c r = true ↔
      ¬(fb.get c r = true ↔ (r = wrapY py ∧ RowHit b px m c))) ∧
    (((List.range m).foldl (drawBit b px py) (fb, false)).2 = true ↔
      ∃ c, RowHit b px m c ∧ fb.get c (wrapY py) = true) := by
  induction m with
  | zero =>
    have hno : ∀ c, ¬RowHit b px 0 c := by
      rintro c ⟨k, hk, -⟩
      omega
    simp [hno]
  | succ m ih =>
    obtain ⟨ihc, ihb⟩ := ih (by omega)
    have hfresh := not_rowHit_next b px m (by omega)
    simp only [List.range_succ, List.foldl_append, List.foldl_cons, List.foldl_nil, rowHit_succ]
    generalize (List.range m).foldl (drawBit b px py) (fb, false) = acc at ihc ihb ⊢
    have hold : acc.1.get (wrapX (px + m)) (wrapY py) = fb.get (wrapX (px + m)) (wrapY py) := by
      have := ihc (wrapX (px + m)) (wrapY py)
      rw [Bool.eq_iff_iff, this]
      tauto
    by_cases hb : b.getLsbD (7 - m) = true
    · simp only [drawBit, hb, if_true, true_and]
      refine ⟨fun c r => ?_, ?_⟩
      · rw [FrameBuffer.get_flip]
        by_cases hcr : c = wrapX (px + m) ∧ r = wrapY py
        · obtain ⟨rfl, rfl⟩ := hcr
          simp [hold, hfresh]
        · rw [if_neg hcr, ihc c r]
          tauto
      · simp only [Bool.or_eq_true, hold, ihb]
        constructor
        · rintro (⟨c, hc, hf⟩ | hf)
          · exact ⟨c, .inl hc, hf⟩
          · exact ⟨_, .inr rfl, hf⟩
        · rintro ⟨c, hc | rfl, hf⟩
          · exact .inl ⟨c, hc, hf⟩
          · exact .inr hf
    · simp only [drawBit, hb, Bool.false_eq_true, if_false, false_and, or_false]
      exact ⟨ihc, ihb⟩

/-- `DrawByte` (R134): one row by exclusive or, and whether it shares a set pixel with the display. -/
theorem drawByte_spec (b : Byte) (px py : Nat) (fb : FrameBuffer) :
    (∀ c r, (drawByte b px py fb).1.get c r = true ↔
      ¬(fb.get c r = true ↔ (r = wrapY py ∧ RowHit b px 8 c))) ∧
    ((drawByte b px py fb).2 = true ↔ ∃ c, RowHit b px 8 c ∧ fb.get c (wrapY py) = true) :=
  drawBits_spec b px py fb 8 (Nat.le_refl 8)

/-! ### The whole sprite -/

/-- Pixel `(c, r)` lies under a set bit of the rows of a sprite drawn from column `px` and row `py`. -/
def SpriteHit (px : Nat) (rows : List Byte) (py : Nat) (c : Fin Config.width) (r : Fin Config.height) : Prop :=
  ∃ j b, rows[j]? = some b ∧ r = wrapY (py + j) ∧ RowHit b px 8 c

theorem spriteHit_nil (px py : Nat) (c : Fin Config.width) (r : Fin Config.height) : ¬SpriteHit px [] py c r := by
  rintro ⟨j, b, h, -⟩
  simp at h

theorem spriteHit_cons (px py : Nat) (b : Byte) (rows : List Byte) (c : Fin Config.width)
    (r : Fin Config.height) :
    SpriteHit px (b :: rows) py c r ↔ (r = wrapY py ∧ RowHit b px 8 c) ∨ SpriteHit px rows (py + 1) c r := by
  constructor
  · rintro ⟨j, b', h, hr, hc⟩
    cases j with
    | zero =>
      obtain rfl : b = b' := by simpa using h
      exact .inl ⟨hr, hc⟩
    | succ j => exact .inr ⟨j, b', by simpa using h, by rw [hr]; congr 1; omega, hc⟩
  · rintro (⟨hr, hc⟩ | ⟨j, b', h, hr, hc⟩)
    · exact ⟨0, b, rfl, hr, hc⟩
    · exact ⟨j + 1, b', by simpa using h, by rw [hr]; congr 1; omega, hc⟩

/-- The later rows do not reach the first row's line (R130). -/
theorem not_spriteHit_first (px py : Nat) (rows : List Byte) (hlen : rows.length ≤ 31) (c : Fin Config.width) :
    ¬SpriteHit px rows (py + 1) c (wrapY py) := by
  rintro ⟨j, b, h, hr, -⟩
  have hj : j < rows.length := by
    by_contra hge
    rw [List.getElem?_eq_none (by omega)] at h
    cases h
  rw [wrapY_eq_iff] at hr
  have h' : py % 32 = (py + 1 + j) % 32 := hr
  omega

/-- A whole sprite of at most 32 rows (R127, R130): the display afterwards is the display before,
exclusive or the placed image; the collision flag says whether the two share a set pixel. -/
theorem drawSprite_spec (px : Nat) (rows : List Byte) (py : Nat) (fb : FrameBuffer) (hlen : rows.length ≤ 32) :
    (∀ c r, (drawSprite px rows py fb).1.get c r = true ↔
      ¬(fb.get c r = true ↔ SpriteHit px rows py c r)) ∧
    ((drawSprite px rows py fb).2 = true ↔ ∃ c r, SpriteHit px rows py c r ∧ fb.get c r = true) := by
  induction rows generalizing py fb with
  | nil => simp [drawSprite, spriteHit_nil]
  | cons b rows ih =>
    simp only [List.length_cons] at hlen
    obtain ⟨hrow, hcoll⟩ := drawByte_spec b px py fb
    obtain ⟨ihc, ihb⟩ := ih (py + 1) (drawByte b px py fb).1 (by omega)
    have hdisj := not_spriteHit_first px py rows (by omega)
    simp only [drawSprite, spriteHit_cons, Bool.or_eq_true]
    refine ⟨fun c r => ?_, ?_⟩
    · rw [ihc, hrow]
      by_cases hr : r = wrapY py
      · subst hr
        have := hdisj c
        tauto
      · tauto
    · rw [hcoll, ihb]
      constructor
      · rintro (⟨c, hc, hf⟩ | ⟨c, r, hc, hf⟩)
        · exact ⟨c, _, .inl ⟨rfl, hc⟩, hf⟩
        · refine ⟨c, r, .inr hc, ?_⟩
          rw [hrow] at hf
          by_contra hn
          have hr : r = wrapY py := by tauto
          subst hr
          exact hdisj c hc
      · rintro ⟨c, r, ⟨rfl, hc⟩ | hc, hf⟩
        · exact .inl ⟨c, hc, hf⟩
        · refine .inr ⟨c, r, hc, ?_⟩
          rw [hrow]
          have hr : r ≠ wrapY py := by
            rintro rfl
            exact hdisj c hc
          tauto

end Sys2Proof.Machine
end

