-- ==== Sys2Proof/Laws/PerInstr.lean ====
section
/-! SUPPORT. Statements per instruction: the word the encoder gives an instruction lies in the
instruction's row of the opcode map (30_encoding.md R67). -/

namespace Sys2Proof.Laws.RowMatch

/-- Some row of the opcode map has the instruction's mnemonic and matches its encoded word (R67). -/
def Statement (i : Instr) : Prop :=
  ∃ r ∈ opcodeMap, r.mnemonic = i.mnemonic ∧ r.matchesWord (encode i) = true

/-- Under a mask nibble of zeros nothing is left. -/
theorem and_zeros {k : Nat} (f : BitVec k) : f &&& 0 = 0 := BitVec.and_zero

/-- Under a mask nibble of ones the field is left whole. -/
theorem and_nibble (f : BitVec 4) : f &&& 0xF = f := BitVec.and_allOnes

/-- Under a mask byte of ones the field is left whole. -/
theorem and_byte (f : BitVec 8) : f &&& 0xFF = f := BitVec.and_allOnes

/-- A row of mask 0xF000 sees the top nibble of a word of format `NNN`. -/
theorem nnn_top (op : BitVec 4) (nnn : BitVec 12) : encodeNnn op nnn &&& 0xF000 = encodeNnn op 0 :=
  (encodeNnn_and op 0xF nnn 0).trans (by rw [and_zeros, and_nibble])

/-- A row of mask 0xF000 sees the top nibble of a word of format `XNN`. -/
theorem xnn_top (op x : BitVec 4) (nn : BitVec 8) : encodeXnn op x nn &&& 0xF000 = encodeXnn op 0 0 :=
  (encodeXnn_and op 0xF x 0 nn 0).trans (by rw [and_zeros, and_zeros, and_nibble])

/-- A row of mask 0xF0FF sees the top nibble and the low byte. -/
theorem xnn_key (op x : BitVec 4) (nn : BitVec 8) : encodeXnn op x nn &&& 0xF0FF = encodeXnn op 0 nn :=
  (encodeXnn_and op 0xF x 0 nn 0xFF).trans (by rw [and_zeros, and_nibble, and_byte])

/-- A row of mask 0xF000 sees the top nibble of a word of format `XYN`. -/
theorem xyn_top (op x y n : BitVec 4) : encodeXyn op x y n &&& 0xF000 = encodeXyn op 0 0 0 :=
  (encodeXyn_and op 0xF x 0 y 0 n 0).trans (by rw [and_zeros, and_zeros, and_zeros, and_nibble])

/-- A row of mask 0xF00F sees the top and the low nibble. -/
theorem xyn_key (op x y n : BitVec 4) : encodeXyn op x y n &&& 0xF00F = encodeXyn op 0 0 n :=
  (encodeXyn_and op 0xF x 0 y 0 n 0xF).trans (by rw [and_zeros, and_zeros, and_nibble, and_nibble])

/-- The statement from one row of the map and the word under its mask. -/
theorem of_row {i : Instr} (r : OpcodeRow) (hr : r ∈ opcodeMap) (hm : r.mnemonic = i.mnemonic)
    (hw : encode i &&& r.mask = r.value) : Statement i :=
  ⟨r, hr, hm, by rw [OpcodeRow.matchesWord, hw, beq_self_eq_true]⟩

theorem cls : Statement (.cls) :=
  of_row ⟨"CLS", 0xF0FF, 0x00E0⟩ (by decide) rfl (xnn_key 0x0 0x0 0xE0)

theorem ret : Statement (.ret) :=
  of_row ⟨"RET", 0xF0FF, 0x00EE⟩ (by decide) rfl (xnn_key 0x0 0x0 0xEE)

theorem jp (nnn : BitVec 12) : Statement (.jp nnn) :=
  of_row ⟨"JP", 0xF000, 0x1000⟩ (by decide) rfl (nnn_top 0x1 nnn)

theorem call (nnn : BitVec 12) : Statement (.call nnn) :=
  of_row ⟨"CALL", 0xF000, 0x2000⟩ (by decide) rfl (nnn_top 0x2 nnn)

theorem seImm (x : Reg) (nn : Byte) : Statement (.seImm x nn) :=
  of_row ⟨"SE_IMM", 0xF000, 0x3000⟩ (by decide) rfl (xnn_top 0x3 (nibbleOf x) nn)

theorem sneImm (x : Reg) (nn : Byte) : Statement (.sneImm x nn) :=
  of_row ⟨"SNE_IMM", 0xF000, 0x4000⟩ (by decide) rfl (xnn_top 0x4 (nibbleOf x) nn)

theorem seReg (x : Reg) (y : Reg) : Statement (.seReg x y) :=
  of_row ⟨"SE_REG", 0xF000, 0x5000⟩ (by decide) rfl (xyn_top 0x5 (nibbleOf x) (nibbleOf y) 0x0)

theorem ldImm (x : Reg) (nn : Byte) : Statement (.ldImm x nn) :=
  of_row ⟨"LD_IMM", 0xF000, 0x6000⟩ (by decide) rfl (xnn_top 0x6 (nibbleOf x) nn)

theorem addImm (x : Reg) (nn : Byte) : Statement (.addImm x nn) :=
  of_row ⟨"ADD_IMM", 0xF000, 0x7000⟩ (by decide) rfl (xnn_top 0x7 (nibbleOf x) nn)

theorem ldReg (x : Reg) (y : Reg) : Statement (.ldReg x y) :=
  of_row ⟨"LD_REG", 0xF00F, 0x8000⟩ (by decide) rfl (xyn_key 0x8 (nibbleOf x) (nibbleOf y) 0x0)

theorem and (x : Reg) (y : Reg) : Statement (.and x y) :=
  of_row ⟨"AND", 0xF00F, 0x8002⟩ (by decide) rfl (xyn_key 0x8 (nibbleOf x) (nibbleOf y) 0x2)

theorem xor (x : Reg) (y : Reg) : Statement (.xor x y) :=
  of_row ⟨"XOR", 0xF00F, 0x8003⟩ (by decide) rfl (xyn_key 0x8 (nibbleOf x) (nibbleOf y) 0x3)

theorem addReg (x : Reg) (y : Reg) : Statement (.addReg x y) :=
  of_row ⟨"ADD_REG", 0xF00F, 0x8004⟩ (by decide) rfl (xyn_key 0x8 (nibbleOf x) (nibbleOf y) 0x4)

theorem sub (x : Reg) (y : Reg) : Statement (.sub x y) :=
  of_row ⟨"SUB", 0xF00F, 0x8005⟩ (by decide) rfl (xyn_key 0x8 (nibbleOf x) (nibbleOf y) 0x5)

theorem shr (x : Reg) : Statement (.shr x) :=
  of_row ⟨"SHR", 0xF00F, 0x8006⟩ (by decide) rfl (xyn_key 0x8 (nibbleOf x) 0x0 0x6)

theorem subn (x : Reg) (y : Reg) : Statement (.subn x y) :=
  of_row ⟨"SUBN", 0xF00F, 0x8007⟩ (by decide) rfl (xyn_key 0x8 (nibbleOf x) (nibbleOf y) 0x7)

theorem shl (x : Reg) : Statement (.shl x) :=
  of_row ⟨"SHL", 0xF00F, 0x800E⟩ (by decide) rfl (xyn_key 0x8 (nibbleOf x) 0x0 0xE)

theorem sneReg (x : Reg) (y : Reg) : Statement (.sneReg x y) :=
  of_row ⟨"SNE_REG", 0xF000, 0x9000⟩ (by decide) rfl (xyn_top 0x9 (nibbleOf x) (nibbleOf y) 0x0)

theorem ldI (nnn : BitVec 12) : Statement (.ldI nnn) :=
  of_row ⟨"LD_I", 0xF000, 0xA000⟩ (by decide) rfl (nnn_top 0xA nnn)

theorem jpV0 (nnn : BitVec 12) : Statement (.jpV0 nnn) :=
  of_row ⟨"JP_V0", 0xF000, 0xB000⟩ (by decide) rfl (nnn_top 0xB nnn)

theorem rnd (x : Reg) (nn : Byte) : Statement (.rnd x nn) :=
  of_row ⟨"RND", 0xF000, 0xC000⟩ (by decide) rfl (xnn_top 0xC (nibbleOf x) nn)

theorem drw (x : Reg) (y : Reg) (n : Nat) : Statement (.drw x y n) :=
  of_row ⟨"DRW", 0xF000, 0xD000⟩ (by decide) rfl (xyn_top 0xD (nibbleOf x) (nibbleOf y) (BitVec.ofNat 4 n))

theorem skp (x : Reg) : Statement (.skp x) :=
  of_row ⟨"SKP", 0xF0FF, 0xE09E⟩ (by decide) rfl (xnn_key 0xE (nibbleOf x) 0x9E)

theorem sknp (x : Reg) : Statement (.sknp x) :=
  of_row ⟨"SKNP", 0xF0FF, 0xE0A1⟩ (by decide) rfl (xnn_key 0xE (nibbleOf x) 0xA1)

theorem ldVxDt (x : Reg) : Statement (.ldVxDt x) :=
  of_row ⟨"LD_VX_DT", 0xF0FF, 0xF007⟩ (by decide) rfl (xnn_key 0xF (nibbleOf x) 0x07)

theorem ldVxK (x : Reg) : Statement (.ldVxK x) :=
  of_row ⟨"LD_VX_K", 0xF0FF, 0xF00A⟩ (by decide) rfl (xnn_key 0xF (nibbleOf x) 0x0A)

theorem ldDtVx (x : Reg) : Statement (.ldDtVx x) :=
  of_row ⟨"LD_DT_VX", 0xF0FF, 0xF015⟩ (by decide) rfl (xnn_key 0xF (nibbleOf x) 0x15)

theorem ldStVx (x : Reg) : Statement (.ldStVx x) :=
  of_row ⟨"LD_ST_VX", 0xF0FF, 0xF018⟩ (by decide) rfl (xnn_key 0xF (nibbleOf x) 0x18)

theorem addIVx (x : Reg) : Statement (.addIVx x) :=
  of_row ⟨"ADD_I_VX", 0xF0FF, 0xF01E⟩ (by decide) rfl (xnn_key 0xF (nibbleOf x) 0x1E)

theorem ldFVx (x : Reg) : Statement (.ldFVx x) :=
  of_row ⟨"LD_F_VX", 0xF0FF, 0xF029⟩ (by decide) rfl (xnn_key 0xF (nibbleOf x) 0x29)

theorem ldBVx (x : Reg) : Statement (.ldBVx x) :=
  of_row ⟨"LD_B_VX", 0xF0FF, 0xF033⟩ (by decide) rfl (xnn_key 0xF (nibbleOf x) 0x33)

theorem ldMemVx (x : Reg) : Statement (.ldMemVx x) :=
  of_row ⟨"LD_MEM_VX", 0xF0FF, 0xF055⟩ (by decide) rfl (xnn_key 0xF (nibbleOf x) 0x55)

theorem ldVxMem (x : Reg) : Statement (.ldVxMem x) :=
  of_row ⟨"LD_VX_MEM", 0xF0FF, 0xF065⟩ (by decide) rfl (xnn_key 0xF (nibbleOf x) 0x65)

end Sys2Proof.Laws.RowMatch
end

