-- ==== Sys2Proof/Laws/Step.lean ====
section
/-! SUPPORT. What an instruction, the CPU's step and the host's events can do, said once, so that no proof
unfolds the dispatcher or the step. -/

namespace Sys2Proof.Machine

/-! ### The parts of the host's side that no instruction writes -/

/-- The host's side as an instruction leaves it: all but the counter of random bytes. -/
structure HostSame (s t : State) : Prop where
  schedule : t.env.schedule = s.env.schedule
  tail : t.env.tail = s.env.tail
  eventCount : t.env.eventCount = s.env.eventCount
  booting : t.env.booting = s.env.booting
  rndIn : t.env.rndIn = s.env.rndIn

theorem HostSame.refl (s : State) : HostSame s s := ⟨rfl, rfl, rfl, rfl, rfl⟩

theorem hostSame_raiseWith (c : Condition) (w : Option Word) (s : State) : HostSame s (raiseWith c w s) :=
  ⟨rfl, rfl, rfl, rfl, rfl⟩

/-! ### Instructions that answer through a test -/

theorem execRet_cases {s t : State} (h : execRet s = .next t) :
    (s.stack = [] ∧ t = raise .callStackUnderflow s) ∨
    ∃ a rest, s.stack = a :: rest ∧ t = s.returnTo a rest := by
  unfold execRet at h
  split at h <;> cases h
  · exact .inl ⟨‹_›, rfl⟩
  · exact .inr ⟨_, _, ‹_›, rfl⟩

theorem execCall_cases {nnn : BitVec 12} {s t : State} (h : execCall nnn s = .next t) :
    (s.sp = 16 ∧ t = raise .callStackOverflow s) ∨ (s.sp ≠ 16 ∧ t = s.callTo (addr12 nnn)) := by
  unfold execCall at h
  split at h <;> cases h
  · exact .inl ⟨‹_›, rfl⟩
  · exact .inr ⟨‹_›, rfl⟩

theorem execLdVxK_cases {x : Reg} {s t : State} (h : execLdVxK x s = .next t) :
    (s.key = none ∧ t = s) ∨ ∃ k, s.key = some k ∧ t = (s.setV x (k.setWidth 8)).advance := by
  unfold execLdVxK at h
  split at h <;> cases h
  · exact .inr ⟨_, ‹_›, rfl⟩
  · exact .inl ⟨‹_›, rfl⟩

theorem not_outOfRange {base k : Nat} (h : ¬OutOfRange base k) : k = 0 ∨ base + k ≤ 4096 := by
  rw [outOfRange_iff] at h
  omega

/-! ### Any instruction -/

/-- No instruction faults or refuses. -/
theorem exec_answers (i : Instr) (s : State) : ∃ t, exec i s = .next t := by
  cases i with
  | ret => simp only [exec, execRet]; split <;> exact ⟨_, rfl⟩
  | call nnn => simp only [exec, execCall]; split <;> exact ⟨_, rfl⟩
  | ldVxK x => simp only [exec, execLdVxK]; split <;> exact ⟨_, rfl⟩
  | _ => exact ⟨_, rfl⟩

/-- The two ends of a range-checked instruction. -/
theorem withRange_ends {k : Nat} {s effect t : State} {P : Prop} (ht : t = withRange s.base k s effect)
    (hP : P ↔ OutOfRange s.base k) (h1 : effect.halt = s.halt) (h2 : effect.err = s.err)
    (h3 : HostSame s effect) :
    (P ∧ ∃ c, t = raise c s) ∨ (¬P ∧ t.halt = s.halt ∧ t.err = s.err ∧ HostSame s t) := by
  obtain ⟨hr, he⟩ | ⟨hr, he⟩ := withRange_cases s.base k s effect <;> rw [ht, he]
  · exact .inr ⟨mt hP.1 hr, h1, h2, h3⟩
  · exact .inl ⟨hP.2 hr, _, rfl⟩

/-- The two ends of an instruction: the raised state, or an effect that leaves `HALT`, `ERR` and the
host's side alone. -/
theorem exec_cases {i : Instr} {s t : State} (h : exec i s = .next t) :
    (Raises s i ∧ ∃ c, t = raise c s) ∨
    (¬Raises s i ∧ t.halt = s.halt ∧ t.err = s.err ∧ HostSame s t) := by
  have same : HostSame s s := .refl s
  cases i with
  | ret =>
    obtain ⟨hs, rfl⟩ | ⟨a, rest, hs, rfl⟩ := execRet_cases h
    · exact .inl ⟨hs, _, rfl⟩
    · exact .inr ⟨by simp [Raises, hs], rfl, rfl, rfl, rfl, rfl, rfl, rfl⟩
  | call nnn =>
    obtain ⟨hs, rfl⟩ | ⟨hs, rfl⟩ := execCall_cases h
    · exact .inl ⟨hs, _, rfl⟩
    · exact .inr ⟨hs, rfl, rfl, rfl, rfl, rfl, rfl, rfl⟩
  | ldVxK x =>
    obtain ⟨hs, rfl⟩ | ⟨k, hs, rfl⟩ := execLdVxK_cases h
    · exact .inr ⟨id, rfl, rfl, same⟩
    · exact .inr ⟨id, rfl, rfl, rfl, rfl, rfl, rfl, rfl⟩
  | drw x y n =>
    refine withRange_ends (Host.Outcome.next.inj h).symm ?_ rfl rfl ⟨rfl, rfl, rfl, rfl, rfl⟩
    exact (outOfRange_iff _ _).symm
  | ldBVx x =>
    refine withRange_ends (Host.Outcome.next.inj h).symm ?_ rfl rfl ⟨rfl, rfl, rfl, rfl, rfl⟩
    rw [outOfRange_iff]
    simp [Raises, State.base]
  | ldMemVx x =>
    refine withRange_ends (Host.Outcome.next.inj h).symm ?_ rfl rfl ⟨rfl, rfl, rfl, rfl, rfl⟩
    rw [outOfRange_iff]
    simp [Raises, State.base, blockLen]
  | ldVxMem x =>
    refine withRange_ends (Host.Outcome.next.inj h).symm ?_ rfl rfl ⟨rfl, rfl, rfl, rfl, rfl⟩
    rw [outOfRange_iff]
    simp [Raises, State.base, blockLen]
  | _ => cases h; exact .inr ⟨id, by simp, by simp, by simp, by simp, by simp, by simp, by simp⟩

/-! ### The CPU's step -/

/-- One cycle: a fetch out of bounds, a word of no row, or the instruction fetched. -/
theorem runCycle_cases (s : State) :
    (4096 ≤ s.pc.toNat + 1 ∧
      runCycle s = .next (raise (.memoryOutOfBounds (max s.pc.toNat 4096)) s)) ∨
    (s.pc.toNat + 1 < 4096 ∧
      decodeWord (s.readMem s.pc.toNat ++ s.readMem (s.pc.toNat + 1)) = none ∧
      runCycle s = .next (raise .unsupportedInstruction s)) ∨
    ∃ i, s.pc.toNat + 1 < 4096 ∧
      decodeWord (s.readMem s.pc.toNat ++ s.readMem (s.pc.toNat + 1)) = some i ∧
      runCycle s = exec i s := by
  unfold runCycle
  by_cases hp : s.pc.toNat + 1 < 4096
  · rw [fetch_in hp]
    cases hd : decodeWord (s.readMem s.pc.toNat ++ s.readMem (s.pc.toNat + 1)) with
    | none => exact .inr (.inl ⟨hp, rfl, by simp only [hd]⟩)
    | some i => exact .inr (.inr ⟨i, hp, rfl, by simp only [hd]⟩)
  · rw [fetch_out (Nat.le_of_not_lt hp)]
    exact .inl ⟨Nat.le_of_not_lt hp, rfl⟩

theorem cpuStep_halted {s : State} (h : s.halt = true) : cpuStep s = .next s := if_pos h

theorem cpuStep_running {s : State} (h : s.halt = false) : cpuStep s = runCycle s.leaveBoot := by
  simp [cpuStep, h]

/-- The CPU's step always answers. -/
theorem cpuStep_answers (s : State) : ∃ t, cpuStep s = .next t := by
  cases h : s.halt with
  | true => exact ⟨s, cpuStep_halted h⟩
  | false =>
    rw [cpuStep_running h]
    obtain ⟨-, h⟩ | ⟨-, -, h⟩ | ⟨i, -, -, h⟩ := runCycle_cases s.leaveBoot <;> rw [h]
    · exact ⟨_, rfl⟩
    · exact ⟨_, rfl⟩
    · exact exec_answers i _

/-! ### One step of the model -/

theorem step_noEvent {s : State} (h : s.pendingEvent = none) : step s = cpuStep s := by
  simp only [step, nextEvent, h]

theorem step_event {s : State} {e : Event} (h : s.pendingEvent = some e) :
    step s = deliver e s.takeEvent := by
  simp only [step, nextEvent, h]

/-- Everything a step can be: the CPU's step, or the host's next event. -/
theorem step_cases {s t : State} (h : step s = .next t) :
    (s.pendingEvent = none ∧ cpuStep s = .next t) ∨
    ∃ e, s.pendingEvent = some e ∧ deliver e s.takeEvent = .next t := by
  cases hs : s.pendingEvent with
  | none => exact .inl ⟨rfl, step_noEvent hs ▸ h⟩
  | some e => exact .inr ⟨e, rfl, step_event hs ▸ h⟩

/-- Everything an event can do. -/
theorem deliver_cases {e : Event} {s t : State} (h : deliver e s = .next t) :
    (e = .reset ∧ t = resetEvent s) ∨
    (∃ image, e = .load image ∧ s.env.booting = true ∧
      ((3584 < image.length ∧ t = raiseWith (.memoryOutOfBounds 4096) none s.leaveBoot) ∨
        (image.length ≤ 3584 ∧ t = s.leaveBoot.storeBytes 0x200 image))) ∨
    (∃ rnd u, e = .step rnd ∧ cpuStep (s.offerRnd (some rnd)) = .next u ∧ t = u.offerRnd none) ∨
    (e = .tick ∧ t = tickEvent s) ∨
    (∃ k, e = .setKey k ∧ t = setKeyEvent k s) ∨
    (e = .readFb ∧ t = s) := by
  cases e with
  | reset => cases h; exact .inl ⟨rfl, rfl⟩
  | load image =>
    simp only [deliver, loadEvent] at h
    split at h
    · rename_i hb
      refine .inr (.inl ⟨image, rfl, hb, ?_⟩)
      split at h <;> cases h
      · exact .inl ⟨‹_›, rfl⟩
      · exact .inr ⟨Nat.le_of_not_lt ‹_›, rfl⟩
    · cases h
  | step rnd =>
    obtain ⟨u, hu⟩ := cpuStep_answers (s.offerRnd (some rnd))
    simp only [deliver, stepEvent, hu, mapNext] at h
    cases h
    exact .inr (.inr (.inl ⟨rnd, u, rfl, hu, rfl⟩))
  | tick => cases h; exact .inr (.inr (.inr (.inl ⟨rfl, rfl⟩)))
  | setKey k => cases h; exact .inr (.inr (.inr (.inr (.inl ⟨k, rfl, rfl⟩))))
  | readFb => cases h; exact .inr (.inr (.inr (.inr (.inr ⟨rfl, rfl⟩))))

end Sys2Proof.Machine
end

