-- ==== Sys2Proof/Tests/Slice0.lean ====
section
/-! SUPPORT. Tests, with expected values from the spec alone (95_test_vectors.md, by the vector's id, or the
opcode map of 30_encoding.md R67), and for every statement with hypotheses a state that meets them. -/

namespace Sys2Proof.Tests

open Sys2Proof Sys2Proof.Machine

/-! ## Helpers -/

/-- The next state, if there is one. -/
def stateOf (r : Result) : Option State :=
  match r with
  | .next t => some t
  | .fault _ => none
  | .refused _ => none

/-- What is seen of the state after one step that runs the word `w` placed in `s`. -/
def after {α : Type} (s : State) (w : Nat) (see : State → α) : Option α :=
  (stateOf (step (s.withFetchWord 16 w))).map see

/-- What is seen of the state after one step that delivers the event `e` to `s`. -/
def afterEvent {α : Type} (s : State) (e : Event) (see : State → α) : Option α :=
  (stateOf (step (s.withSchedule [e]))).map see

/-- The reset state with some registers set. -/
def withV : List (Reg × Byte) → State
  | [] => State.reset
  | (r, b) :: l => (withV l).setV r b

/-- The reset state with `I` at 0x300, some registers set and some bytes at 0x300. -/
def at300 (l : List (Reg × Byte)) (bs : List Byte) : State := ((withV l).setI 0x300).storeBytes 0x300 bs

/-- The pixel (column, row). -/
def pixel (s : State) (c : Fin 64) (r : Fin 32) : Bool := s.fb.get c r

/-- The reset state with a word placed: it meets the hypotheses of a step that runs. -/
def placed (w : Nat) : State := State.reset.withFetchWord 16 w

/-! ## Well-formed instructions -/

theorem test_wellFormed_refuses_sixteen_rows : (Instr.drw 0 0 16).wellFormed = false := by decide

theorem test_wellFormed_takes_fifteen_rows : (Instr.drw 15 15 15).wellFormed = true := by decide

/-! ## Decoding: one word of every row, written out bit by bit from R67 -/

theorem test_decode_control :
    decodeWord 0b0000000011101110 = some .ret ∧
    decodeWord 0b0001001000110100 = some (.jp 0x234) ∧
    decodeWord 0b0010101010111100 = some (.call 0xABC) ∧
    decodeWord 0b0011001101000010 = some (.seImm 3 0x42) ∧
    decodeWord 0b0100001101000010 = some (.sneImm 3 0x42) ∧
    decodeWord 0b0101000100100000 = some (.seReg 1 2) ∧
    decodeWord 0b1001000100100000 = some (.sneReg 1 2) ∧
    decodeWord 0b1011001100000000 = some (.jpV0 0x300) := by decide

theorem test_decode_alu :
    decodeWord 0b0110101000000101 = some (.ldImm 0xA 0x05) ∧
    decodeWord 0b0111001000000001 = some (.addImm 2 0x01) ∧
    decodeWord 0b1000000100100000 = some (.ldReg 1 2) ∧
    decodeWord 0b1000000100100010 = some (.and 1 2) ∧
    decodeWord 0b1000000100100011 = some (.xor 1 2) ∧
    decodeWord 0b1000101010110100 = some (.addReg 0xA 0xB) ∧
    decodeWord 0b1000000100100101 = some (.sub 1 2) ∧
    decodeWord 0b1000000100000110 = some (.shr 1) ∧
    decodeWord 0b1000000100100111 = some (.subn 1 2) ∧
    decodeWord 0b1000000100001110 = some (.shl 1) := by decide

theorem test_decode_index_memory :
    decodeWord 0b1010001011110000 = some (.ldI 0x2F0) ∧
    decodeWord 0b1111001000011110 = some (.addIVx 2) ∧
    decodeWord 0b1111000100101001 = some (.ldFVx 1) ∧
    decodeWord 0b1111000100110011 = some (.ldBVx 1) ∧
    decodeWord 0b1111001101010101 = some (.ldMemVx 3) ∧
    decodeWord 0b1111000001100101 = some (.ldVxMem 0) := by decide

theorem test_decode_display_device :
    decodeWord 0b0000000011100000 = some .cls ∧
    decodeWord 0b1101000100100101 = some (.drw 1 2 5) ∧
    decodeWord 0b1100001100001111 = some (.rnd 3 0x0F) ∧
    decodeWord 0b1110000110011110 = some (.skp 1) ∧
    decodeWord 0b1110000110100001 = some (.sknp 1) ∧
    decodeWord 0b1111001000000111 = some (.ldVxDt 2) ∧
    decodeWord 0b1111001100001010 = some (.ldVxK 3) ∧
    decodeWord 0b1111001000010101 = some (.ldDtVx 2) ∧
    decodeWord 0b1111001000011000 = some (.ldStVx 2) := by decide

/-- E7, E8, E9: the unread nibble is ignored. -/
theorem test_decode_unread_nibbles :
    decodeWord 0b0000101011100000 = some .cls ∧ decodeWord 0b0101000100100111 = some (.seReg 1 2) ∧
    decodeWord 0b1000000100100110 = some (.shr 1) := by decide

/-- E2, E3, E10, X2 to X6: words of no row. -/
theorem test_decode_unsupported :
    decodeWord 0x0000 = none ∧ decodeWord 0xFFFF = none ∧ decodeWord 0x8121 = none ∧
    decodeWord 0x00E1 = none ∧ decodeWord 0x0123 = none ∧ decodeWord 0xE100 = none ∧
    decodeWord 0xF100 = none ∧ decodeWord 0xF175 = none := by decide

/-- The table's numbering: a word's high byte comes first in memory (R47). -/
theorem test_decodeTableWord : decodeTableWord 16 0x1234 = some (.jp 0x234) := by decide

theorem test_decodeBytes_errors :
    decodeBytes [] = .error .truncated ∧ decodeBytes [0x12] = .error .truncated ∧
    decodeBytes [0x00, 0xE1, 0x55] = .error (.unsupportedInstruction 0x00E1) := ⟨rfl, rfl, rfl⟩

theorem test_encode_words :
    encode (.drw 1 2 5) = 0xD125 ∧ encode (.shr 1) = 0x8106 ∧ encode (.jp 0x234) = 0x1234 ∧
    encode (.ldMemVx 1) = 0xF155 := by decide

/-- The constraints of R5 hold of the parameters. -/
theorem test_params_ok : Config.params.Ok := by decide

/-- R32: 80 font bytes; glyph A, at 0x032 (P3). -/
theorem test_font : Config.font.length = Config.fontLen ∧
    State.reset.mem.readBytes 0x032 5 = [0xF0, 0x90, 0xF0, 0x90, 0x90] := by decide

/-- R67: no two rows of the opcode map take one word: each pair differs in a bit both masks read. -/
theorem test_opcodeMap_rows_disjoint :
    opcodeMap.Pairwise fun r q => r.value &&& (r.mask &&& q.mask) ≠ q.value &&& (r.mask &&& q.mask) := by
  decide

/-! ## Control flow -/

/-- F10: two entries, the later one is popped; the `x` nibble is ignored. -/
theorem test_ret :
    after { State.reset with stack := [0x400, 0x300] } 0x03EE (fun t => (t.pc, t.stack)) =
      some (0x400, [0x300]) := by decide

/-- F9. -/
theorem test_ret_empty :
    after State.reset 0x00EE (fun t => (t.pc, t.halt, t.err)) =
      some (0x200, true, ⟨.callStackUnderflow, 0x200, true, 0x00EE, 0⟩) := by decide

/-- F2. -/
theorem test_jp : after State.reset 0x1FFF (fun t => (t.pc, t.halt)) = some (0xFFF, false) := by decide

/-- F7. -/
theorem test_call_at_the_end_of_memory :
    after { State.reset with pc := 0xFFE } 0x2ABC (fun t => (t.pc, t.sp, t.slot 0)) =
      some (0xABC, 1, some 0x1000) := by decide

/-- F6. -/
theorem test_call_full :
    after { State.reset with stack := List.replicate 16 0x202 } 0x2300
      (fun t => (t.pc, t.sp, t.err)) =
      some (0x200, 16, ⟨.callStackOverflow, 0x200, true, 0x2300, 0⟩) := by decide

/-- F13, F14. -/
theorem test_se_imm :
    after (withV [(3, 0x42)]) 0x3342 (·.pc) = some 0x204 ∧
    after (withV [(3, 0x42)]) 0x3343 (·.pc) = some 0x202 := by decide

/-- F15, F16. -/
theorem test_sne_imm :
    after (withV [(3, 0x42)]) 0x4342 (·.pc) = some 0x202 ∧
    after (withV [(3, 0x42)]) 0x4300 (·.pc) = some 0x204 := by decide

/-- F18, F19. -/
theorem test_se_reg :
    after (withV [(1, 7), (2, 8)]) 0x5120 (·.pc) = some 0x202 ∧
    after (withV [(1, 7), (2, 7)]) 0x5127 (·.pc) = some 0x204 := by decide

/-- F21, F22. -/
theorem test_sne_reg :
    after (withV [(1, 7), (2, 8)]) 0x9120 (·.pc) = some 0x204 ∧
    after (withV [(1, 7), (2, 7)]) 0x9120 (·.pc) = some 0x202 := by decide

/-- F12: no mask. -/
theorem test_jp_v0 : after (withV [(0, 0xFF)]) 0xBFFF (·.pc) = some 0x10FE := by decide

/-! ## Load, arithmetic, bitwise, shift -/

/-- A1. -/
theorem test_ld_imm :
    after State.reset 0x6A05 (fun t => (t.getV 0xA, t.pc)) = some (0x05, 0x202) := by decide

/-- A3. -/
theorem test_add_imm :
    after (withV [(2, 0xFF), (VF, 0x55)]) 0x7201 (fun t => (t.getV 2, t.getV VF)) =
      some (0x00, 0x55) := by decide

/-- A6. -/
theorem test_ld_reg :
    after (withV [(1, 0x12), (2, 0x34)]) 0x8120 (fun t => (t.getV 1, t.getV 2)) =
      some (0x34, 0x34) := by decide

/-- A7. -/
theorem test_and :
    after (withV [(1, 0xF0), (2, 0x3C), (VF, 0x55)]) 0x8122 (fun t => (t.getV 1, t.getV VF)) =
      some (0x30, 0x55) := by decide

/-- A8. -/
theorem test_xor :
    after (withV [(1, 0xF0), (2, 0x3C), (VF, 0x55)]) 0x8123 (fun t => (t.getV 1, t.getV VF)) =
      some (0xCC, 0x55) := by decide

/-- A13, A12: 255 does not carry and keeps `VF`; 256 carries. -/
theorem test_add_reg :
    after (withV [(1, 0xFF), (2, 0x00), (VF, 0x07)]) 0x8124 (fun t => (t.getV 1, t.getV VF)) =
      some (0xFF, 0x07) ∧
    after (withV [(1, 0xFF), (2, 0x01)]) 0x8124 (fun t => (t.getV 1, t.getV VF)) =
      some (0x00, 0x01) := by decide

/-- A16, A17: the destination is `VF`. -/
theorem test_add_reg_to_vf :
    after (withV [(VF, 0x10), (1, 0x20)]) 0x8F14 (·.getV VF) = some 0x30 ∧
    after (withV [(VF, 0xF0), (1, 0x20)]) 0x8F14 (·.getV VF) = some 0x01 := by decide

/-- A21, A22. -/
theorem test_sub :
    after (withV [(1, 5), (2, 3), (VF, 9)]) 0x8125 (fun t => (t.getV 1, t.getV VF)) = some (2, 0) ∧
    after (withV [(1, 3), (2, 5)]) 0x8125 (fun t => (t.getV 1, t.getV VF)) = some (0xFE, 1) := by decide

/-- A23, A25: equal operands; the destination is `VF`. -/
theorem test_sub_corners :
    after (withV [(1, 5), (2, 5), (VF, 1)]) 0x8125 (fun t => (t.getV 1, t.getV VF)) = some (0, 0) ∧
    after (withV [(VF, 5), (1, 3)]) 0x8F15 (·.getV VF) = some 0 := by decide

/-- A36, A37: `Vy` is not used; the destination is `VF`. -/
theorem test_shr :
    after (withV [(1, 0xFF), (2, 0x00)]) 0x8126 (fun t => (t.getV 1, t.getV VF)) = some (0x7F, 1) ∧
    after (withV [(VF, 5)]) 0x8F06 (·.getV VF) = some 1 := by decide

/-- A29, A30. -/
theorem test_subn :
    after (withV [(1, 3), (2, 5), (VF, 9)]) 0x8127 (fun t => (t.getV 1, t.getV VF)) = some (2, 0) ∧
    after (withV [(1, 5), (2, 3)]) 0x8127 (fun t => (t.getV 1, t.getV VF)) = some (0xFE, 1) := by decide

/-- A40, A44. -/
theorem test_shl :
    after (withV [(1, 0x81)]) 0x810E (fun t => (t.getV 1, t.getV VF)) = some (0x02, 1) ∧
    after (withV [(VF, 0x41)]) 0x8F0E (·.getV VF) = some 0 := by decide

/-! ## Index register and memory -/

/-- M2. -/
theorem test_ld_i : after State.reset 0xAFFF (fun t => (t.i, t.pc)) = some (0xFFF, 0x202) := by decide

/-- M4, M5. -/
theorem test_add_i_vx :
    after ((withV [(2, 0x01)]).setI 0x0FFF) 0xF21E (fun t => (t.i, t.getV VF, t.halt)) =
      some (0x1000, 0, false) ∧
    after ((withV [(2, 0x02)]).setI 0xFFFF) 0xF21E (·.i) = some 0x0001 := by decide

/-- M10, M11: no nibble mask. -/
theorem test_ld_f_vx :
    after (withV [(1, 0x10)]) 0xF129 (·.i) = some 0x0050 ∧
    after (withV [(1, 0xFF)]) 0xF129 (·.i) = some 0x04FB := by decide

/-- M12 (and S9). -/
theorem test_ld_b_vx :
    after (at300 [(1, 0x9D)] []) 0xF133 (fun t => (t.mem.readBytes 0x300 4, t.i)) =
      some ([1, 5, 7, 0], 0x300) := by decide

/-- M20: effective addresses do not wrap. -/
theorem test_ld_b_vx_out :
    after ((withV [(1, 0x63)]).setI 0xFFFF) 0xF133 (fun t => (t.pc, t.err)) =
      some (0x200, ⟨.memoryOutOfBounds, 0x200, true, 0xF133, 0xFFFF⟩) := by decide

/-- M21. -/
theorem test_ld_mem_vx :
    after (at300 [(0, 1), (1, 2), (2, 3), (3, 4), (4, 5)] []) 0xF355
      (fun t => (t.mem.readBytes 0x300 5, t.i)) = some ([1, 2, 3, 4, 0], 0x300) := by decide

/-- M24 (and S11): nothing is written. -/
theorem test_ld_mem_vx_out :
    after ((withV [(0, 1), (1, 2), (2, 3), (3, 4)]).setI 0xFFE) 0xF355
      (fun t => (t.err, t.readMem 0xFFE, t.readMem 0xFFF)) =
      some (⟨.memoryOutOfBounds, 0x200, true, 0xF355, 0x1000⟩, 0, 0) := by decide

/-- M27. -/
theorem test_ld_vx_mem :
    after (at300 [] [1, 2, 3, 4, 5]) 0xF365 (fun t => (t.v.toList.take 5, t.i)) =
      some ([1, 2, 3, 4, 0], 0x300) := by decide

/-- M29: nothing is loaded. -/
theorem test_ld_vx_mem_out :
    after ((State.reset.setI 0xFFE).storeBytes 0xFFE [1, 2]) 0xF365
      (fun t => (t.err, t.getV 0, t.getV 1)) =
      some (⟨.memoryOutOfBounds, 0x200, true, 0xF365, 0x1000⟩, 0, 0) := by decide

/-! ## Display -/

/-- G1 (and S2): pixels at three corners cleared. -/
theorem test_cls :
    after (State.reset.setFb (((FrameBuffer.blank.flip 0 0).flip 5 7).flip 63 31)) 0x00E0
      (fun t => (pixel t 0 0, pixel t 5 7, pixel t 63 31, t.pc)) =
      some (false, false, false, 0x202) := by decide

/-- G8: C3 81 at (62, 31) wraps on both axes. -/
theorem test_drw_wraps :
    after (at300 [(1, 0x3E), (2, 0x1F), (VF, 1)] [0xC3, 0x81]) 0xD122
      (fun t => ([pixel t 62 31, pixel t 63 31, pixel t 0 31, pixel t 4 31, pixel t 62 0, pixel t 5 0],
        t.getV VF)) = some ([true, true, false, true, true, true], 0) := by decide

/-- G5: one erased pixel is a collision. -/
theorem test_drw_collides :
    after ((at300 [] [0xFF]).setFb (FrameBuffer.blank.flip 7 0)) 0xD011
      (fun t => (pixel t 0 0, pixel t 6 0, pixel t 7 0, pixel t 8 0, t.getV VF)) =
      some (true, true, false, false, 1) := by decide

/-- G10, G13: no row reads nothing; one row out of bounds raises. -/
theorem test_drw_bounds :
    after ((withV [(VF, 1)]).setI 0xFFFF) 0xD010 (fun t => (t.halt, t.getV VF)) = some (false, 0) ∧
    after (State.reset.setI 0x1000) 0xD011 (·.err) =
      some ⟨.memoryOutOfBounds, 0x200, true, 0xD011, 0x1000⟩ := by decide

/-! ## Keyboard, timers, random -/

/-- K4, K5. -/
theorem test_skp :
    after (State.reset.setKey (some 0)) 0xE19E (·.pc) = some 0x204 ∧
    after ((withV [(1, 0x15)]).setKey (some 5)) 0xE19E (·.pc) = some 0x202 := by decide

/-- K6, K8. -/
theorem test_sknp :
    after ((withV [(1, 5)]).setKey (some 5)) 0xE1A1 (·.pc) = some 0x202 ∧
    after State.reset 0xE1A1 (·.pc) = some 0x204 := by decide

/-- K10, K13. -/
theorem test_ld_vx_k :
    after State.reset 0xF30A (fun t => (t.getV 3, t.pc)) = some (0, 0x200) ∧
    after (State.reset.setKey (some 0xF)) 0xFF0A (fun t => (t.getV VF, t.pc)) =
      some (0x0F, 0x202) := by decide

/-- K16. -/
theorem test_ld_vx_dt :
    after (State.reset.setDt 0x3C) 0xF207 (fun t => (t.getV 2, t.dt)) = some (0x3C, 0x3C) := by decide

/-- K17. -/
theorem test_ld_dt_vx :
    after (withV [(2, 0x3C)]) 0xF215 (fun t => (t.dt, t.st, t.pc)) = some (0x3C, 0, 0x202) := by decide

/-- K18. -/
theorem test_ld_st_vx :
    after (withV [(2, 0x10)]) 0xF218 (fun t => (t.st, t.dt, t.pc)) = some (0x10, 0, 0x202) := by decide

/-- K23, K26: the host gives the byte. -/
theorem test_rnd :
    afterEvent (placed 0xC30F) (.step 0xA7) (fun t => (t.getV 3, t.pc, t.env.rndIn)) =
      some (0x07, 0x202, none) ∧
    afterEvent (placed 0xCFF0) (.step 0xFF) (·.getV VF) = some 0xF0 := by decide

/-! ## Fetch, fatal conditions, events -/

/-- H2, H3, H4: the fetch out of bounds, with no instruction word. -/
theorem test_fetch_out :
    (stateOf (step { State.reset with pc := 0xFFF })).map (·.err) =
      some ⟨.memoryOutOfBounds, 0xFFF, false, 0, 0x1000⟩ ∧
    (stateOf (step { State.reset with pc := 0x1000 })).map (·.err) =
      some ⟨.memoryOutOfBounds, 0x1000, false, 0, 0x1000⟩ ∧
    (stateOf (step { State.reset with pc := 0x10FE })).map (·.err) =
      some ⟨.memoryOutOfBounds, 0x10FE, false, 0, 0x10FE⟩ := by decide

/-- X1: what an empty memory executes. -/
theorem test_empty_memory :
    (stateOf (step State.reset)).map (fun t => (t.pc, t.halt, t.err)) =
      some (0x200, true, ⟨.unsupportedInstruction, 0x200, true, 0x0000, 0⟩) := by decide

/-- H5: an odd address is legal. -/
theorem test_odd_pc :
    after { State.reset with pc := 0x201 } 0x6A05 (fun t => (t.getV 0xA, t.pc)) =
      some (0x05, 0x203) := by decide

/-- K19, K20, K21. -/
theorem test_tick :
    afterEvent ((State.reset.setDt 2).setSt 0x10) .tick (fun t => (t.dt, t.st)) = some (1, 0x10) ∧
    afterEvent State.reset .tick (·.dt) = some 0 := by decide

/-- K15. -/
theorem test_set_key :
    afterEvent (State.reset.setKey (some 3)) (.setKey (some 9)) (·.key) = some (some 9) := by decide

/-- X10: `reset` leaves `HALT`. -/
theorem test_reset_event :
    afterEvent (raise .callStackUnderflow (placed 0x00EE)) .reset (fun t => (t.halt, t.err, t.pc)) =
      some (false, ⟨.none, 0, false, 0, 0⟩, 0x200) := by decide

/-- R173: the image's first byte goes to 0x200. -/
theorem test_load :
    afterEvent State.reset (.load [0x12, 0x34]) (fun t => t.mem.readBytes 0x1FF 4) =
      some [0, 0x12, 0x34, 0] := by decide

/-- A late `load` has no meaning (R173; log 11). -/
theorem test_late_load : step ((placed 0x00E0).withSchedule [.load []]) = .refused .loadOutsideBoot := rfl

/-! ## Witnesses: for every statement with hypotheses, a state and operands that meet them together -/

theorem witness_DecodeOfEncode : (Instr.drw 15 0 15).WellFormed := by decide

theorem witness_EncodeOfDecodedWord : decodeWord 0x8AB4 = some (.addReg 0xA 0xB) := by decide

theorem witness_DecoderAgrees : (⟨"SHL", 0xF00F, 0x800E⟩ : OpcodeRow) ∈ opcodeMap := by decide

theorem witness_DispatchReadsOnlyItsKeys :
    (0x8124 : Word) ≠ 0x8F24 ∧ (fieldsOf 0x8124).op = (fieldsOf 0x8F24).op ∧
    (fieldsOf 0x8124).nn = (fieldsOf 0x8F24).nn := by decide

/-- A state that runs CLS at the last address a word can be fetched from. -/
def lastCls : State := { State.reset with pc := 0xFFE, mem := [(0xFFF, 0xE0)] }

theorem witness_StepRuns_noEvent :
    lastCls.halt = false ∧ lastCls.pc.toNat + 1 < 4096 ∧
    decodeBytes [lastCls.readMem lastCls.pc.toNat, lastCls.readMem (lastCls.pc.toNat + 1)] =
      .ok (.cls, []) ∧ lastCls.pendingEvent = none := ⟨rfl, by decide, rfl, rfl⟩

theorem witness_StepRuns_event :
    let s := lastCls.withSchedule [.step 0x5A, .tick]
    s.halt = false ∧ s.pc.toNat + 1 < 4096 ∧
    decodeBytes [s.readMem s.pc.toNat, s.readMem (s.pc.toNat + 1)] = .ok (.cls, []) ∧
    s.pendingEvent = some (.step 0x5A) := ⟨rfl, by decide, rfl, rfl⟩

/-- The last byte of memory, the first address past it, and the highest `PC` an instruction can write; a
free step and a host's step. -/
theorem witness_FetchOutOfBounds :
    let s := { State.reset with pc := 0xFFF }
    let u := { State.reset with pc := 0x1000 }
    s.halt = false ∧ 4096 ≤ s.pc.toNat + 1 ∧ s.pendingEvent = none ∧
    u.halt = false ∧ 4096 ≤ u.pc.toNat + 1 ∧
    (s.withSchedule [.step 7]).pendingEvent = some (.step 7) := by decide

theorem witness_UnsupportedWord :
    let s := { State.reset with pc := 0xFFE }
    s.halt = false ∧ s.pc.toNat + 1 < 4096 ∧
    decodeWord (s.readMem s.pc.toNat ++ s.readMem (s.pc.toNat + 1)) = none ∧
    s.pendingEvent = none ∧ (s.withSchedule [.step 7]).pendingEvent = some (.step 7) := by decide

/-- Each clause of the order of the host's events. -/
theorem witness_HostEvents :
    let queued := State.reset.withSchedule [.tick, .readFb]
    let steps := State.reset
    let cycle := { State.reset with env := { State.reset.env with tail := .cycle .tick [.step 1] } }
    let free := { State.reset with env := { State.reset.env with tail := .free } }
    queued.env.schedule = .tick :: [.readFb] ∧
    (steps.env.schedule = [] ∧ steps.env.tail = .steps) ∧
    (cycle.env.schedule = [] ∧ cycle.env.tail = .cycle .tick [.step 1]) ∧
    (free.env.schedule = [] ∧ free.env.tail = .free) := by decide

theorem witness_EndlessTicks :
    let s := { State.reset with env := { State.reset.env with tail := .cycle .tick [] } }
    s.env.schedule = [] ∧ s.env.tail = .cycle .tick [] := by decide

/-- R187: a host that ticks and steps in turn without end: the second event of the cycle is taken after the
first, and the cycle goes on after it. -/
theorem test_cycle_of_events :
    let s := { placed 0x1200 with
      dt := 5, env := { (placed 0x1200).env with tail := .cycle .tick [.step 1] } }
    (stateOf (core.run 4 s)).map (fun t => (t.dt, t.pc, t.env.schedule)) = some (3, 0x200, []) := by decide

/-- A free host: its event is the free value. -/
theorem test_free_event :
    let s := { State.reset with env := { State.reset.env with tail := .free, eventCount := 3 } }
    s.pendingEvent = some (Config.hostEvent 3) ∧ s.takeEvent.env.eventCount = 4 := ⟨rfl, rfl⟩

/-- A halted state. -/
def halted : State := raise .callStackUnderflow (placed 0x00EE)

theorem witness_HaltedStep_noEvent : halted.halt = true ∧ halted.pendingEvent = none := by decide

theorem witness_HaltedStep_event :
    let s := halted.withSchedule [.step 0xFF]
    s.halt = true ∧ s.env.rndIn = none ∧ s.pendingEvent = some (.step 0xFF) := by decide

theorem witness_PlacedWord : decodeWord 0x1234 = some (.jp 0x234) := by decide

theorem witness_LateLoad :
    let s := (placed 0x00E0).withSchedule [.load [1]]
    s.pendingEvent = some (.load [1]) ∧ s.env.booting = false := by decide

theorem witness_FatalConditions_instruction :
    let s := placed 0x00EE
    s.halt = false ∧ exec .ret s = .next halted ∧ halted.halt = true ∧ s.pc.toNat + 1 < 4096 :=
  ⟨rfl, rfl, rfl, by decide⟩

/-- By an unsupported word, by a fetch out of bounds, and by an image that is too long. -/
theorem witness_FatalConditions_step :
    let word := State.reset
    let fetch := { State.reset with pc := 0xFFF }
    let load := State.reset.withSchedule [.load (List.replicate 3585 1)]
    (word.halt = false ∧ word.env.rndIn = none ∧
      step word = .next (raise .unsupportedInstruction word.leaveBoot)) ∧
    (fetch.halt = false ∧ fetch.env.rndIn = none ∧
      step fetch = .next (raise (.memoryOutOfBounds 4096) fetch.leaveBoot)) ∧
    (load.halt = false ∧ load.env.rndIn = none ∧
      step load = .next (raiseWith (.memoryOutOfBounds 4096) none load.takeEvent.leaveBoot)) := by
  refine ⟨⟨rfl, rfl, rfl⟩, ⟨rfl, rfl, rfl⟩, rfl, rfl, ?_⟩
  rw [step_event rfl]
  simp only [deliver, loadEvent, List.length_replicate]
  rfl

theorem witness_ExactlyTheListed : (placed 0x00EE).halt = false ∧ Raises (placed 0x00EE) .ret :=
  ⟨rfl, rfl⟩

theorem witness_StackConditions_underflow :
    (placed 0x00EE).stack = [] ∧ (placed 0x00EE).pc.toNat + 1 < 4096 := by decide

/-- A state with a full call stack. -/
def fullStack : State := { State.reset with stack := List.replicate 16 0x202 }

theorem witness_StackConditions_overflow :
    fullStack.stack.length = 16 ∧ fullStack.pc.toNat + 1 < 4096 := by decide

/-- Every clause at the lowest `I` that raises. -/
theorem witness_BlockOutOfBounds :
    State.reset.pc.toNat + 1 < 4096 ∧
    (0 < 1 ∧ 4096 ≤ (State.reset.setI 4096).i.toNat + 1 - 1) ∧
    (0 < 15 ∧ 4096 ≤ (State.reset.setI 4082).i.toNat + 15 - 1) ∧
    (0 < 3 ∧ 4096 ≤ (State.reset.setI 4094).i.toNat + 3 - 1) ∧
    (0 < (3 : Reg).val + 1 ∧ 4096 ≤ (State.reset.setI 4093).i.toNat + ((3 : Reg).val + 1) - 1) := by
  decide

theorem witness_Call : State.reset.sp < 16 ∧ (fullStack.returnTo 0 (fullStack.stack.drop 1)).sp = 15 := by
  decide

theorem witness_Return : 0 < fullStack.sp ∧ 0 < (State.reset.callTo 0x300).sp := by decide

theorem witness_JumpToSelf : State.reset.pc.toNat = (0x200 : BitVec 12).toNat := by decide

theorem witness_DecimalDigits : (State.reset.setI 4093).i.toNat + 2 < 4096 := by decide

theorem witness_RegisterBlock :
    (State.reset.setI 4095).i.toNat + (0 : Reg).val < 4096 ∧
    (State.reset.setI 4080).i.toNat + (15 : Reg).val < 4096 := by decide

/-- A block of one register: the word it ends, the word it begins. -/
theorem witness_StoreIsSeen_block :
    let s := (State.reset.setV 0 7).setI 0x300
    s.i.toNat + (0 : Reg).val < 4096 ∧ (0x2FF : Word).toNat + 1 < 4096 ∧
    ByteAfterBlockStore s 0 0x2FF 0 ∧ ByteAfterBlockStore s 0 0x300 7 ∧ ByteAfterBlockStore s 0 0x301 0 :=
  ⟨by decide, by decide, .inr ⟨by decide, rfl⟩, .inl ⟨0, by decide, by decide, by decide⟩,
    .inr ⟨by decide, rfl⟩⟩

/-- The block at the end of memory. -/
theorem witness_StoreIsSeen_block_end :
    let s := (State.reset.setV 15 7).setI 4080
    s.i.toNat + (15 : Reg).val < 4096 ∧ (4094 : Word).toNat + 1 < 4096 ∧
    ByteAfterBlockStore s 15 4094 0 ∧ ByteAfterBlockStore s 15 4095 7 :=
  ⟨by decide, by decide, .inl ⟨14, by decide, by decide, by decide⟩,
    .inl ⟨15, by decide, by decide, by decide⟩⟩

/-- 0x9D is 157: each digit, and the bytes on both sides. -/
theorem witness_StoreIsSeen_digits :
    let s := (State.reset.setV 1 0x9D).setI 0x300
    s.i.toNat + 2 < 4096 ∧ ByteAfterDigitStore s 1 0x2FF 0 ∧ ByteAfterDigitStore s 1 0x300 1 ∧
    ByteAfterDigitStore s 1 0x301 5 ∧ ByteAfterDigitStore s 1 0x302 7 ∧ ByteAfterDigitStore s 1 0x303 0 :=
  ⟨by decide, .inr (.inr (.inr ⟨by decide, rfl⟩)), .inl (by decide), .inr (.inl (by decide)),
    .inr (.inr (.inl (by decide))), .inr (.inr (.inr ⟨by decide, rfl⟩))⟩

theorem witness_Draw_noRow : (0 ≤ 15) ∧ ((0 = 0) ∨ (State.reset.setI 0xFFFF).i.toNat + 0 - 1 < 4096) := by
  decide

theorem witness_Draw_lastByte : (15 ≤ 15) ∧ (State.reset.setI 4081).i.toNat + 15 - 1 < 4096 := by decide

/-- With the sprite of 15 bytes ending at the last address. -/
theorem witness_DrawTwice :
    (0 : Reg) ≠ VF ∧ (1 : Reg) ≠ VF ∧ 15 ≤ 15 ∧ (State.reset.setI 4081).i.toNat + 15 - 1 < 4096 := by
  decide

/-- A pixel under a sprite, and one that is not: glyph 0's first row is F0. -/
theorem witness_SpriteLit : SpriteLit State.reset 0 0 5 3 0 ∧ ¬SpriteLit State.reset 0 0 0 3 0 :=
  ⟨⟨0, 3, by decide, by decide, by decide, by decide, by decide⟩, fun ⟨_, _, h, _⟩ => by omega⟩

theorem witness_HostReads : (State.reset.withSchedule [.readFb]).pendingEvent = some .readFb := rfl

theorem witness_KeyWait : (State.reset.setKey (some 0)).key = some 0 ∧ State.reset.key = none := by decide

theorem witness_RandomByte_input : ((placed 0xC3FF).offerRnd (some 0x5A)).env.rndIn = some 0x5A := by decide

theorem witness_RandomByte_event :
    let s := (placed 0xC3FF).withSchedule [.step 0x5A]
    s.halt = false ∧ s.pendingEvent = some (.step 0x5A) ∧ s.pc.toNat + 1 < 4096 ∧
    decodeBytes [s.readMem s.pc.toNat, s.readMem (s.pc.toNat + 1)] = .ok (.rnd 3 0xFF, []) :=
  ⟨rfl, rfl, by decide, rfl⟩

theorem witness_SetKey : (halted.withSchedule [.setKey (some 9)]).pendingEvent = some (.setKey (some 9)) := rfl

theorem witness_Tick : (halted.withSchedule [.tick]).pendingEvent = some .tick := rfl

theorem witness_Load_fits :
    let s := State.reset.withSchedule [.load (List.replicate 3584 1)]
    s.pendingEvent = some (.load (List.replicate 3584 1)) ∧ s.env.booting = true ∧
    (List.replicate 3584 (1 : Byte)).length ≤ 3584 := ⟨rfl, rfl, by rw [List.length_replicate]⟩

theorem witness_Load_tooLong :
    let s := State.reset.withSchedule [.load (List.replicate 3585 1)]
    s.pendingEvent = some (.load (List.replicate 3585 1)) ∧ s.env.booting = true ∧
    3584 < (List.replicate 3585 (1 : Byte)).length := ⟨rfl, rfl, by rw [List.length_replicate]; decide⟩

theorem witness_ResetEvent : (halted.withSchedule [.reset]).pendingEvent = some .reset := rfl

theorem witness_InstructionFrame :
    exec (.jp 0x234) State.reset = .next (State.reset.setPc 0x234) ∧ ¬Raises State.reset (.jp 0x234) :=
  ⟨rfl, id⟩

/-- The invariant holds of a state that runs an instruction next. -/
theorem inv_placed : Inv (placed 0x1234) where
  mem := by decide
  depth := by decide
  range := ⟨by decide, fun a h => by cases h⟩
  error := ⟨fun _ => rfl, fun h => Bool.noConfusion h, fun _ => rfl, fun _ => rfl⟩
  rnd := rfl
  booted := fun _ => rfl

theorem witness_StepKeepsTheInvariant :
    Inv (placed 0x1234) ∧ step (placed 0x1234) = .next ((placed 0x1234).setPc 0x234) := ⟨inv_placed, rfl⟩

/-- The invariant holds of a halted state. -/
theorem inv_halted : Inv (halted.withSchedule [.tick]) where
  mem := by decide
  depth := by decide
  range := ⟨by decide, fun a h => by cases h⟩
  error := ⟨fun h => Bool.noConfusion h, by decide, by decide, fun _ => rfl⟩
  rnd := rfl
  booted := fun _ => rfl

theorem witness_OnlyResetLeavesHalt :
    let s := halted.withSchedule [.tick]
    Inv s ∧ s.halt = true ∧ step s = .next halted := ⟨inv_halted, rfl, rfl⟩

theorem witness_CanonicalMemory : Memory.wf [(0x300, 1), (0xFFF, 2)] = true := by decide

/-- Writing the reset value takes the entry out again (log 4). -/
theorem test_memory_write_back :
    Memory.write (Memory.write [] 0x300 1) 0x300 0 = [] ∧ Memory.write [] 0x000 0xF0 = [] := by decide

theorem witness_StackDepth :
    exec (.call 0x300) State.reset = .next (State.reset.callTo 0x300) ∧ State.reset.sp ≠ 16 :=
  ⟨rfl, by decide⟩

end Sys2Proof.Tests
end

section
/-! PROOFS. The fields of every word (30_encoding.md R62, R63). -/

namespace Sys2Proof

/-- The idea of R62: the bits that stand at `start` are the word shifted down to them and masked to their
width. -/
theorem setWidth_extractLsb'_eq_shift_and_mask (w : Word) (start len : Nat) (hlen : len ≤ 16) :
    (w.extractLsb' start len).setWidth 16 = (w >>> start) &&& BitVec.ofNat 16 (2 ^ len - 1) := by
  have hpos : 0 < 2 ^ len := Nat.two_pow_pos len
  have hle : 2 ^ len ≤ 2 ^ 16 := Nat.pow_le_pow_right two_pos hlen
  have hmask : 2 ^ len - 1 < 2 ^ 16 := by omega
  have hfit : (w.toNat >>> start) % 2 ^ len < 2 ^ 16 := (Nat.mod_lt _ hpos).trans_le hle
  apply BitVec.eq_of_toNat_eq
  rw [BitVec.toNat_setWidth, BitVec.extractLsb'_toNat, Nat.mod_eq_of_lt hfit, BitVec.toNat_and,
    BitVec.toNat_ushiftRight, BitVec.toNat_ofNat, Nat.mod_eq_of_lt hmask, Nat.and_two_pow_sub_one_eq_mod]

/-- A field at bit 0 needs the mask alone. -/
theorem setWidth_extractLsb'_zero_eq_and_mask (w : Word) (len : Nat) (hlen : len ≤ 16) :
    (w.extractLsb' 0 len).setWidth 16 = w &&& BitVec.ofNat 16 (2 ^ len - 1) := by
  rw [setWidth_extractLsb'_eq_shift_and_mask w 0 len hlen, BitVec.ushiftRight_zero]

/-- Settles O5: each field is an extraction, so R62's computation is the law of shift and mask at its
place and width; R63's three recoveries are the words of the formats `NNN`, `XYN` and `XNN`. -/
theorem decoderFieldsOfEveryWord : Obligations.DecoderFieldsOfEveryWord := by
  intro w
  refine ⟨⟨?op, ?nnn, ?nn, ?n, ?x, ?y⟩, (encodeNnn_fieldsOf w).symm, (encodeXyn_fieldsOf w).symm,
    (encodeXnn_fieldsOf w).symm⟩
  case op => exact setWidth_extractLsb'_eq_shift_and_mask w 12 4 (by decide)
  case nnn => exact setWidth_extractLsb'_zero_eq_and_mask w 12 (by decide)
  case nn => exact setWidth_extractLsb'_zero_eq_and_mask w 8 (by decide)
  case n => exact setWidth_extractLsb'_zero_eq_and_mask w 4 (by decide)
  case x => exact setWidth_extractLsb'_eq_shift_and_mask w 8 4 (by decide)
  case y => exact setWidth_extractLsb'_eq_shift_and_mask w 4 4 (by decide)

end Sys2Proof
end

section
/-! PROOFS. Words selected by their top nibble alone (30_encoding.md R67, R83). -/

namespace Sys2Proof

@[simp] theorem op_encodeNnn (op : BitVec 4) (nnn : BitVec 12) : (fieldsOf (encodeNnn op nnn)).op = op :=
  (fieldsOf_encodeNnn op nnn).1

@[simp] theorem op_encodeXnn (op x : BitVec 4) (nn : BitVec 8) : (fieldsOf (encodeXnn op x nn)).op = op :=
  (fieldsOf_encodeXnn op x nn).1

@[simp] theorem op_encodeXyn (op x y n : BitVec 4) : (fieldsOf (encodeXyn op x y n)).op = op :=
  (fieldsOf_encodeXyn op x y n).1

theorem op_encode_of_dispatchZero {nn : BitVec 8} {i : Instr} (h : dispatchZero nn = some i) :
    (fieldsOf (encode i)).op = 0x0 := by
  unfold dispatchZero at h
  split at h <;> cases h <;> rfl

theorem op_encode_of_dispatchAlu {x y n : BitVec 4} {i : Instr} (h : dispatchAlu x y n = some i) :
    (fieldsOf (encode i)).op = 0x8 := by
  unfold dispatchAlu at h
  split at h <;> cases h <;> exact op_encodeXyn ..

theorem op_encode_of_dispatchKey {x : BitVec 4} {nn : BitVec 8} {i : Instr}
    (h : dispatchKey x nn = some i) : (fieldsOf (encode i)).op = 0xE := by
  unfold dispatchKey at h
  split at h <;> cases h <;> exact op_encodeXnn ..

theorem op_encode_of_dispatchMisc {x : BitVec 4} {nn : BitVec 8} {i : Instr}
    (h : dispatchMisc x nn = some i) : (fieldsOf (encode i)).op = 0xF := by
  unfold dispatchMisc at h
  split at h <;> cases h <;> exact op_encodeXnn ..

/-- Decoding keeps the top nibble: the word and its instruction's own word have the same. Four nibbles
(0x0, 0x8, 0xE, 0xF) go on to a second selection; each other one names its instruction at once. -/
theorem op_encode_of_decodeWord {w : Word} {i : Instr} (h : decodeWord w = some i) :
    (fieldsOf (encode i)).op = (fieldsOf w).op := by
  unfold decodeWord dispatch at h
  split at h
  case h_17 => cases h
  all_goals rename_i hop; rw [hop]
  case h_1 => exact op_encode_of_dispatchZero h
  case h_9 => exact op_encode_of_dispatchAlu h
  case h_15 => exact op_encode_of_dispatchKey h
  case h_16 => exact op_encode_of_dispatchMisc h
  all_goals cases h; simp [encode]

/-- The mask of the top nibble matches a row's value exactly when the nibble is the row's. -/
theorem and_F000_eq_iff (w : Word) (op : BitVec 4) :
    w &&& 0xF000 = encodeNnn op 0 ↔ (fieldsOf w).op = op := by
  rw [← BitVec.toNat_inj, ← BitVec.toNat_inj, toNat_and_F000, toNat_encodeNnn, toNat_op,
    show (0 : BitVec 12).toNat = 0 from rfl]
  omega

/-- A row of the opcode map that reads the top nibble alone: it is enough that the decoder answers `i` on
that nibble, because a word that decodes to `i` has `i`'s top nibble. -/
theorem and_F000_eq_iff_decodeWord {w : Word} {i : Instr} (op : BitVec 4)
    (hi : (fieldsOf (encode i)).op = op) (hd : (fieldsOf w).op = op → decodeWord w = some i) :
    w &&& 0xF000 = encodeNnn op 0 ↔ decodeWord w = some i :=
  (and_F000_eq_iff w op).trans ⟨hd, fun h => (op_encode_of_decodeWord h).symm.trans hi⟩

end Sys2Proof
end

section
/-! PROOFS. Jumps and immediate skips (41_control_flow.md R92, R94, R95, R96). -/

namespace Sys2Proof.Machine

/-! ### Encodings -/

theorem decodeWord_jp_iff (w : Word) :
    w &&& 0xF000 = 0x1000 ↔ decodeWord w = some (.jp (fieldsOf w).nnn) :=
  and_F000_eq_iff_decodeWord 0x1 (op_encodeNnn ..) fun h => by
    rw [decodeWord, dispatch, h]; rfl

theorem decodeWord_jpV0_iff (w : Word) :
    w &&& 0xF000 = 0xB000 ↔ decodeWord w = some (.jpV0 (fieldsOf w).nnn) :=
  and_F000_eq_iff_decodeWord 0xB (op_encodeNnn ..) fun h => by
    rw [decodeWord, dispatch, h]; rfl

theorem decodeWord_seImm_iff (w : Word) :
    w &&& 0xF000 = 0x3000 ↔ decodeWord w = some (.seImm (regOf (fieldsOf w).x) (fieldsOf w).nn) :=
  and_F000_eq_iff_decodeWord 0x3 (op_encodeXnn ..) fun h => by
    rw [decodeWord, dispatch, h]; rfl

theorem decodeWord_sneImm_iff (w : Word) :
    w &&& 0xF000 = 0x4000 ↔ decodeWord w = some (.sneImm (regOf (fieldsOf w).x) (fieldsOf w).nn) :=
  and_F000_eq_iff_decodeWord 0x4 (op_encodeXnn ..) fun h => by
    rw [decodeWord, dispatch, h]; rfl

/-! ### Effects -/

/-- Writing `PC` leaves every other part of the state as before. -/
theorem State.frame_setPc (s : State) (a : Word) : Frame {.pc} s (s.setPc a) := by
  intro p hp
  cases p with
  | pc => exact absurd rfl hp
  | _ => rfl

/-- A skip, taken or not, writes `PC` alone. -/
theorem State.frame_skipIf (s : State) (taken : Bool) : Frame {.pc} s (s.skipIf taken) :=
  s.frame_setPc _

/-- `V0 + nnn` wraps at 16 bits, not at 12 (R94). -/
theorem toNat_zextByte_add_addr12 (b : Byte) (nnn : BitVec 12) :
    (zextByte b + addr12 nnn).toNat = (b.toNat + nnn.toNat) % 65536 := by
  rw [BitVec.toNat_add, toNat_zextByte, toNat_addr12]

theorem State.toNat_pc_skipIf_beq (s : State) (a b : Byte) :
    (s.skipIf (a == b)).pc.toNat = (s.pc.toNat + if a.toNat = b.toNat then 4 else 2) % 65536 := by
  simp only [State.skipIf_toNat, beq_iff_eq, BitVec.toNat_inj]

theorem State.toNat_pc_skipIf_bne (s : State) (a b : Byte) :
    (s.skipIf (a != b)).pc.toNat = (s.pc.toNat + if a.toNat = b.toNat then 2 else 4) % 65536 := by
  simp only [State.skipIf_toNat, bne_iff_ne, ne_eq, ite_not, BitVec.toNat_inj]

/-! ### The obligations -/

/-- Settles O18: top nibble 1 is the row of `JP`, and its meaning writes `PC` alone. -/
theorem jumpSetsThePc : Obligations.JumpSetsThePc :=
  ⟨decodeWord_jp_iff, fun nnn s => ⟨s.setPc (addr12 nnn), rfl, toNat_addr12 nnn, s.frame_setPc _⟩⟩

/-- Settles O19: top nibble 0xB is the row of `JP V0`, and its meaning writes the 16-bit sum to `PC`
alone. -/
theorem jumpWithOffsetAddsV0 : Obligations.JumpWithOffsetAddsV0 :=
  ⟨decodeWord_jpV0_iff, fun nnn s => ⟨s.setPc (zextByte (s.getV 0) + addr12 nnn), rfl,
    toNat_zextByte_add_addr12 (s.getV 0) nnn, s.frame_setPc _⟩⟩

/-- Settles O23: top nibbles 3 and 4 are the rows of the two skips; each is a conditional write of `PC`,
on equality for `SE` and on inequality for `SNE`. -/
theorem immediateSkips : Obligations.ImmediateSkips := by
  refine ⟨decodeWord_seImm_iff, decodeWord_sneImm_iff, fun x nn s => ⟨?seImm, ?sneImm⟩⟩
  case seImm =>
    exact ⟨s.skipIf (s.getV x == nn), rfl, s.toNat_pc_skipIf_beq (s.getV x) nn, s.frame_skipIf _⟩
  case sneImm =>
    exact ⟨s.skipIf (s.getV x != nn), rfl, s.toNat_pc_skipIf_bne (s.getV x) nn, s.frame_skipIf _⟩

end Sys2Proof.Machine
end

section
/-! PROOFS. The words of top nibble 8, selected by their low nibble (30_encoding.md R67, R83). -/

namespace Sys2Proof

@[simp] theorem n_encodeXyn (op x y n : BitVec 4) : (fieldsOf (encodeXyn op x y n)).n = n :=
  (fieldsOf_encodeXyn op x y n).2.2.2

theorem n_encode_of_dispatchAlu {x y n : BitVec 4} {i : Instr} (h : dispatchAlu x y n = some i) :
    (fieldsOf (encode i)).n = n := by
  unfold dispatchAlu at h
  split at h <;> cases h <;> exact n_encodeXyn ..

theorem decodeWord_of_op_eq_8 {w : Word} (h : (fieldsOf w).op = 0x8) :
    decodeWord w = dispatchAlu (fieldsOf w).x (fieldsOf w).y (fieldsOf w).n := by
  rw [decodeWord, dispatch, h]
  rfl

/-- The mask of the top and the low nibble matches a row's value exactly when both nibbles are the row's. -/
theorem and_F00F_eq_iff (w : Word) (op n : BitVec 4) :
    w &&& 0xF00F = encodeXyn op 0 0 n ↔ (fieldsOf w).op = op ∧ (fieldsOf w).n = n := by
  have := n.isLt
  simp only [← BitVec.toNat_inj, toNat_and_F00F, toNat_encodeXyn, toNat_op, toNat_n,
    show (0 : BitVec 4).toNat = 0 from rfl]
  omega

/-- A row of top nibble 8: it is enough that its low nibble `n` selects `i`, because a word that decodes
to `i` has `i`'s top nibble, so the low nibble selected it. -/
theorem and_F00F_eq_iff_decodeWord {w : Word} {i : Instr} (n : BitVec 4)
    (hi : dispatchAlu (fieldsOf w).x (fieldsOf w).y n = some i) :
    w &&& 0xF00F = encodeXyn 0x8 0 0 n ↔ decodeWord w = some i := by
  refine (and_F00F_eq_iff w 0x8 n).trans ⟨fun ⟨hop, hn⟩ => ?_, fun hd => ?_⟩
  · rw [decodeWord_of_op_eq_8 hop, hn, hi]
  · have hop : (fieldsOf w).op = 0x8 :=
      (op_encode_of_decodeWord hd).symm.trans (op_encode_of_dispatchAlu hi)
    rw [decodeWord_of_op_eq_8 hop] at hd
    exact ⟨hop, (n_encode_of_dispatchAlu hd).symm.trans (n_encode_of_dispatchAlu hi)⟩

end Sys2Proof
end

section
/-! PROOFS. Register loads and the operations that write no flag (42_load_alu.md R100 to R104). -/

namespace Sys2Proof.Machine

/-! ### Encodings -/

theorem decodeWord_ldImm_iff (w : Word) :
    w &&& 0xF000 = 0x6000 ↔ decodeWord w = some (.ldImm (regOf (fieldsOf w).x) (fieldsOf w).nn) :=
  and_F000_eq_iff_decodeWord 0x6 (op_encodeXnn ..) fun h => by
    rw [decodeWord, dispatch, h]; rfl

theorem decodeWord_addImm_iff (w : Word) :
    w &&& 0xF000 = 0x7000 ↔ decodeWord w = some (.addImm (regOf (fieldsOf w).x) (fieldsOf w).nn) :=
  and_F000_eq_iff_decodeWord 0x7 (op_encodeXnn ..) fun h => by
    rw [decodeWord, dispatch, h]; rfl

theorem decodeWord_ldReg_iff (w : Word) :
    w &&& 0xF00F = 0x8000 ↔
      decodeWord w = some (.ldReg (regOf (fieldsOf w).x) (regOf (fieldsOf w).y)) :=
  and_F00F_eq_iff_decodeWord 0x0 rfl

theorem decodeWord_and_iff (w : Word) :
    w &&& 0xF00F = 0x8002 ↔
      decodeWord w = some (.and (regOf (fieldsOf w).x) (regOf (fieldsOf w).y)) :=
  and_F00F_eq_iff_decodeWord 0x2 rfl

theorem decodeWord_xor_iff (w : Word) :
    w &&& 0xF00F = 0x8003 ↔
      decodeWord w = some (.xor (regOf (fieldsOf w).x) (regOf (fieldsOf w).y)) :=
  and_F00F_eq_iff_decodeWord 0x3 rfl

/-! ### Effects -/

/-- Writing `Vx` and advancing leaves every part but `PC` and `Vx` as before: `VF` too, unless `x` is it. -/
theorem State.frame_setV_advance (s : State) (x : Reg) (b : Byte) :
    Frame {.pc, .v x} s (s.setV x b).advance := by
  intro p hp
  cases p with
  | pc => exact absurd (.inl rfl) hp
  | v r =>
    have hr : r ≠ x := fun h => hp (.inr (congrArg Part.v h))
    exact s.getV_setV_ne x r b hr
  | _ => rfl

/-- What every register write of this family does: the byte in `Vx`, the next `PC`, the frame. -/
theorem State.setV_advance_spec (s : State) (x : Reg) (b : Byte) :
    (s.setV x b).advance.getV x = b ∧ (s.setV x b).advance.pc.toNat = (s.pc.toNat + 2) % 65536 ∧
      Frame {.pc, .v x} s (s.setV x b).advance :=
  ⟨s.getV_setV_same x b, (s.setV x b).advance_toNat, s.frame_setV_advance x b⟩

/-! ### The obligations -/

/-- Settles O26: top nibble 6 is the row of `LD Vx, nn`, and its meaning writes the immediate to `Vx`. -/
theorem loadImmediate : Obligations.LoadImmediate :=
  ⟨decodeWord_ldImm_iff, fun x nn s => ⟨(s.setV x nn).advance, rfl, s.setV_advance_spec x nn⟩⟩

/-- Settles O27: top nibble 7 is the row of `ADD Vx, nn`, and its meaning writes the 8-bit sum to `Vx` and
no flag. -/
theorem addImmediateSetsNoFlag : Obligations.AddImmediateSetsNoFlag := by
  refine ⟨decodeWord_addImm_iff, fun x nn s => ⟨(s.setV x (s.getV x + nn)).advance, rfl, ?_⟩⟩
  obtain ⟨hv, hpc, hframe⟩ := s.setV_advance_spec x (s.getV x + nn)
  exact ⟨by rw [hv, BitVec.toNat_add], hpc, hframe⟩

/-- Settles O28: low nibbles 0, 2 and 3 of top nibble 8 are the rows of the three; each writes `Vx` alone,
and the and and the exclusive or of bytes act on each bit. -/
theorem copyAndXorSetNoFlag : Obligations.CopyAndXorSetNoFlag := by
  refine ⟨decodeWord_ldReg_iff, decodeWord_and_iff, decodeWord_xor_iff, fun x y s =>
    ⟨⟨(s.setV x (s.getV y)).advance, rfl, s.setV_advance_spec x (s.getV y)⟩,
      ⟨(s.setV x (s.getV x &&& s.getV y)).advance, rfl, ?and⟩,
      ⟨(s.setV x (s.getV x ^^^ s.getV y)).advance, rfl, ?xor⟩⟩⟩
  case and =>
    obtain ⟨hv, hpc, hframe⟩ := s.setV_advance_spec x (s.getV x &&& s.getV y)
    exact ⟨fun k _ => by rw [hv, BitVec.getLsbD_and], hpc, hframe⟩
  case xor =>
    obtain ⟨hv, hpc, hframe⟩ := s.setV_advance_spec x (s.getV x ^^^ s.getV y)
    exact ⟨fun k _ => by rw [hv, BitVec.getLsbD_xor, Bool.bne_eq_xor], hpc, hframe⟩

end Sys2Proof.Machine
end

section
/-! PROOFS. The index register (43_index_memory.md R115). -/

namespace Sys2Proof.Machine

/-! ### Encoding -/

theorem decodeWord_ldI_iff (w : Word) :
    w &&& 0xF000 = 0xA000 ↔ decodeWord w = some (.ldI (fieldsOf w).nnn) :=
  and_F000_eq_iff_decodeWord 0xA (op_encodeNnn ..) fun h => by
    rw [decodeWord, dispatch, h]; rfl

/-! ### Effect -/

/-- Writing `I` and advancing leaves every part but `PC` and `I` as before. -/
theorem State.frame_setI_advance (s : State) (a : Word) : Frame {.pc, .i} s (s.setI a).advance := by
  intro p hp
  cases p with
  | pc => exact absurd (.inl rfl) hp
  | i => exact absurd (.inr rfl) hp
  | _ => rfl

/-! ### The obligation -/

/-- Settles O32: top nibble 0xA is the row of `LD I`, and its meaning writes the address to `I` without
comparing it with `MEM_SIZE`. -/
theorem loadIndex : Obligations.LoadIndex :=
  ⟨decodeWord_ldI_iff, fun nnn s => ⟨(s.setI (addr12 nnn)).advance, rfl, toNat_addr12 nnn,
    (s.setI (addr12 nnn)).advance_toNat, s.frame_setI_advance (addr12 nnn)⟩⟩

end Sys2Proof.Machine
end

section
/-! PROOFS. The words of top nibble 0xF, selected by their low byte (30_encoding.md R67, R83). -/

namespace Sys2Proof

@[simp] theorem nn_encodeXnn (op x : BitVec 4) (nn : BitVec 8) : (fieldsOf (encodeXnn op x nn)).nn = nn :=
  (fieldsOf_encodeXnn op x nn).2.2

theorem nn_encode_of_dispatchMisc {x : BitVec 4} {nn : BitVec 8} {i : Instr}
    (h : dispatchMisc x nn = some i) : (fieldsOf (encode i)).nn = nn := by
  unfold dispatchMisc at h
  split at h <;> cases h <;> exact nn_encodeXnn ..

theorem decodeWord_of_op_eq_F {w : Word} (h : (fieldsOf w).op = 0xF) :
    decodeWord w = dispatchMisc (fieldsOf w).x (fieldsOf w).nn := by
  rw [decodeWord, dispatch, h]
  rfl

/-- The mask of the top nibble and the low byte matches a row's value exactly when both are the row's. -/
theorem and_F0FF_eq_iff (w : Word) (op : BitVec 4) (nn : BitVec 8) :
    w &&& 0xF0FF = encodeXnn op 0 nn ↔ (fieldsOf w).op = op ∧ (fieldsOf w).nn = nn := by
  have := nn.isLt
  simp only [← BitVec.toNat_inj, toNat_and_F0FF, toNat_encodeXnn, toNat_op, toNat_nn,
    show (0 : BitVec 4).toNat = 0 from rfl]
  omega

/-- A row of top nibble 0xF: it is enough that its low byte `nn` selects `i`, because a word that decodes
to `i` has `i`'s top nibble, so the low byte selected it. -/
theorem and_F0FF_eq_iff_decodeWord {w : Word} {i : Instr} (nn : BitVec 8)
    (hi : dispatchMisc (fieldsOf w).x nn = some i) :
    w &&& 0xF0FF = encodeXnn 0xF 0 nn ↔ decodeWord w = some i := by
  refine (and_F0FF_eq_iff w 0xF nn).trans ⟨fun ⟨hop, hnn⟩ => ?_, fun hd => ?_⟩
  · rw [decodeWord_of_op_eq_F hop, hnn, hi]
  · have hop : (fieldsOf w).op = 0xF :=
      (op_encode_of_decodeWord hd).symm.trans (op_encode_of_dispatchMisc hi)
    rw [decodeWord_of_op_eq_F hop] at hd
    exact ⟨hop, (nn_encode_of_dispatchMisc hd).symm.trans (nn_encode_of_dispatchMisc hi)⟩

end Sys2Proof
end

section
/-! PROOFS. The delay timer read and written (45_keyboard_timer_random.md R139, R140). -/

namespace Sys2Proof.Machine

/-! ### Encodings -/

theorem decodeWord_ldVxDt_iff (w : Word) :
    w &&& 0xF0FF = 0xF007 ↔ decodeWord w = some (.ldVxDt (regOf (fieldsOf w).x)) :=
  and_F0FF_eq_iff_decodeWord 0x07 rfl

theorem decodeWord_ldDtVx_iff (w : Word) :
    w &&& 0xF0FF = 0xF015 ↔ decodeWord w = some (.ldDtVx (regOf (fieldsOf w).x)) :=
  and_F0FF_eq_iff_decodeWord 0x15 rfl

/-! ### Effect -/

/-- Writing `DT` and advancing leaves every part but `PC` and `DT` as before. -/
theorem State.frame_setDt_advance (s : State) (b : Byte) : Frame {.pc, .dt} s (s.setDt b).advance := by
  intro p hp
  cases p with
  | pc => exact absurd (.inl rfl) hp
  | dt => exact absurd (.inr rfl) hp
  | _ => rfl

/-! ### The obligation -/

/-- Settles O45: low bytes 0x07 and 0x15 of top nibble 0xF are the rows of the two. The read is a register
write of the byte in `DT`, whose frame holds `DT`; the write puts `Vx` in `DT` as it is, not decremented. -/
theorem delayTimerReadAndWritten : Obligations.DelayTimerReadAndWritten := by
  refine ⟨decodeWord_ldVxDt_iff, decodeWord_ldDtVx_iff, fun x s => ⟨?read, ?write⟩⟩
  case read => exact ⟨(s.setV x s.dt).advance, rfl, s.setV_advance_spec x s.dt⟩
  case write =>
    exact ⟨(s.setDt (s.getV x)).advance, rfl, rfl, (s.setDt (s.getV x)).advance_toNat,
      s.frame_setDt_advance (s.getV x)⟩

end Sys2Proof.Machine
end

section
/-! PROOFS. Decoding and encoding undo each other (30_encoding.md R61 to R68, R83). -/

namespace Sys2Proof

/-! ### The operand fields of an encoded word -/

@[simp] theorem nnn_encodeNnn (op : BitVec 4) (nnn : BitVec 12) : (fieldsOf (encodeNnn op nnn)).nnn = nnn :=
  (fieldsOf_encodeNnn op nnn).2

@[simp] theorem x_encodeXnn (op x : BitVec 4) (nn : BitVec 8) : (fieldsOf (encodeXnn op x nn)).x = x :=
  (fieldsOf_encodeXnn op x nn).2.1

@[simp] theorem x_encodeXyn (op x y n : BitVec 4) : (fieldsOf (encodeXyn op x y n)).x = x :=
  (fieldsOf_encodeXyn op x y n).2.1

@[simp] theorem y_encodeXyn (op x y n : BitVec 4) : (fieldsOf (encodeXyn op x y n)).y = y :=
  (fieldsOf_encodeXyn op x y n).2.2.1

/-! ### Decoding an encoded instruction -/

/-- The fields of `i`'s word select `i` again and carry its operands; the row count is the one operand
that fits its field only when `i` is well-formed. -/
theorem decodeWord_encode {i : Instr} (hi : i.WellFormed) : decodeWord (encode i) = some i := by
  cases i with
  | drw x y n =>
    have hn : n ≤ 15 := of_decide_eq_true hi
    have hfield : (BitVec.ofNat 4 n).toNat = n := by
      rw [BitVec.toNat_ofNat]
      omega
    simp [encode, decodeWord, dispatch, hfield]
  | cls | ret => rfl
  | ldReg | and | xor | addReg | sub | shr | subn | shl =>
    simp [encode, decodeWord, dispatch, dispatchAlu]
  | skp | sknp => simp [encode, decodeWord, dispatch, dispatchKey]
  | ldVxDt | ldVxK | ldDtVx | ldStVx | addIVx | ldFVx | ldBVx | ldMemVx | ldVxMem =>
    simp [encode, decodeWord, dispatch, dispatchMisc]
  | _ => simp [encode, decodeWord, dispatch]

/-- Settles O1: the word's fields select the instruction again, and its two bytes are that word. -/
theorem decodeOfEncodeIsTheInstruction : Obligations.DecodeOfEncodeIsTheInstruction := by
  intro i hi
  refine ⟨decodeWord_encode hi, fun rest => ?_⟩
  rw [encodeBytes, decodeBytes_bytesOfWord, decodeWord_encode hi]

/-! ### Encoding a decoded word -/

/-- A mask acts on a word of two nibbles and a byte field by field. -/
theorem and_encodeXnn (w : Word) (a b : BitVec 4) (c : BitVec 8) :
    w &&& encodeXnn a b c =
      encodeXnn ((fieldsOf w).op &&& a) ((fieldsOf w).x &&& b) ((fieldsOf w).nn &&& c) := by
  conv_lhs => rw [← encodeXnn_fieldsOf w]
  exact encodeXnn_and _ _ _ _ _ _

theorem and_FFFF (w : Word) : w &&& 0xFFFF#16 = w := BitVec.and_allOnes

/-- The mask of the format `XY`: all but the `n` nibble. -/
theorem and_FFF0 (w : Word) :
    w &&& 0xFFF0#16 = encodeXyn (fieldsOf w).op (fieldsOf w).x (fieldsOf w).y 0 := by
  rw [show 0xFFF0#16 = encodeXyn 0xF 0xF 0xF 0 from rfl, and_encodeXyn]
  simp only [Laws.RowMatch.and_nibble, Laws.RowMatch.and_zeros]

/-- The mask of the format `XF4`: all but the `y` nibble. -/
theorem and_FF0F (w : Word) :
    w &&& 0xFF0F#16 = encodeXyn (fieldsOf w).op (fieldsOf w).x 0 (fieldsOf w).n := by
  rw [show 0xFF0F#16 = encodeXyn 0xF 0xF 0 0xF from rfl, and_encodeXyn]
  simp only [Laws.RowMatch.and_nibble, Laws.RowMatch.and_zeros]

/-- The mask of the format `F8`: all but the `x` nibble. -/
theorem and_F0FF (w : Word) : w &&& 0xF0FF#16 = encodeXnn (fieldsOf w).op 0 (fieldsOf w).nn := by
  rw [show 0xF0FF#16 = encodeXnn 0xF 0 0xFF from rfl, and_encodeXnn]
  simp only [Laws.RowMatch.and_nibble, Laws.RowMatch.and_zeros, Laws.RowMatch.and_byte]

/-- Encoding `i` gives back the bits of `w` that `i` reads. -/
def Reencodes (w : Word) (i : Instr) : Prop := i.WellFormed ∧ encode i = w &&& i.readMask

theorem reencodes_of_dispatchZero {w : Word} {i : Instr} (hop : (fieldsOf w).op = 0x0#4)
    (h : dispatchZero (fieldsOf w).nn = some i) : Reencodes w i := by
  unfold dispatchZero at h
  split at h <;> cases h
  all_goals
    rename_i hnn
    exact ⟨rfl, by simp [encode, Instr.readMask, and_F0FF, hop, hnn]⟩

theorem reencodes_of_dispatchAlu {w : Word} {i : Instr} (hop : (fieldsOf w).op = 0x8#4)
    (h : dispatchAlu (fieldsOf w).x (fieldsOf w).y (fieldsOf w).n = some i) : Reencodes w i := by
  have hw := encodeXyn_fieldsOf w
  unfold dispatchAlu at h
  split at h <;> cases h
  all_goals
    rename_i hn
    rw [hop, hn] at hw
    exact ⟨rfl, by simp [encode, Instr.readMask, and_FFFF, and_FF0F, hop, hn, hw]⟩

theorem reencodes_of_dispatchKey {w : Word} {i : Instr} (hop : (fieldsOf w).op = 0xE#4)
    (h : dispatchKey (fieldsOf w).x (fieldsOf w).nn = some i) : Reencodes w i := by
  have hw := encodeXnn_fieldsOf w
  unfold dispatchKey at h
  split at h <;> cases h
  all_goals
    rename_i hnn
    rw [hop, hnn] at hw
    exact ⟨rfl, by simp [encode, Instr.readMask, and_FFFF, hw]⟩

theorem reencodes_of_dispatchMisc {w : Word} {i : Instr} (hop : (fieldsOf w).op = 0xF#4)
    (h : dispatchMisc (fieldsOf w).x (fieldsOf w).nn = some i) : Reencodes w i := by
  have hw := encodeXnn_fieldsOf w
  unfold dispatchMisc at h
  split at h <;> cases h
  all_goals
    rename_i hnn
    rw [hop, hnn] at hw
    exact ⟨rfl, by simp [encode, Instr.readMask, and_FFFF, hw]⟩

/-- The word is rebuilt from the fields its format reads. Four top nibbles go on to a second selection;
of the others, 5 and 9 leave the `n` nibble unread, and the rest read the whole word. -/
theorem reencodes_of_decodeWord {w : Word} {i : Instr} (h : decodeWord w = some i) : Reencodes w i := by
  have hnnn := encodeNnn_fieldsOf w
  have hxnn := encodeXnn_fieldsOf w
  have hxyn := encodeXyn_fieldsOf w
  unfold decodeWord dispatch at h
  split at h
  case h_17 => cases h
  all_goals rename_i hop
  case h_1 => exact reencodes_of_dispatchZero hop h
  case h_9 => exact reencodes_of_dispatchAlu hop h
  case h_15 => exact reencodes_of_dispatchKey hop h
  case h_16 => exact reencodes_of_dispatchMisc hop h
  all_goals
    cases h
    rw [hop] at hnnn hxnn hxyn
  case h_14 =>
    have hn := (fieldsOf w).n.isLt
    exact ⟨decide_eq_true (by omega), by simp [encode, Instr.readMask, and_FFFF, hxyn]⟩
  all_goals exact ⟨rfl, by simp [encode, Instr.readMask, and_FFFF, and_FFF0, hop, hnnn, hxnn]⟩

/-- Settles O2: every arm of the decoder gives back the bits its instruction reads. -/
theorem encodeOfDecodedWordKeepsEveryReadBit : Obligations.EncodeOfDecodedWordKeepsEveryReadBit :=
  fun _ _ h => reencodes_of_decodeWord h

end Sys2Proof
end

section
/-! PROOFS. What selects an instruction, and the opcode map (30_encoding.md R66, R67, R71, R83). -/

namespace Sys2Proof

/-! ### The keys of the dispatch -/

theorem mnemonic_dispatchAlu (x y x' y' n : BitVec 4) :
    (dispatchAlu x y n).map Instr.mnemonic = (dispatchAlu x' y' n).map Instr.mnemonic := by
  unfold dispatchAlu
  split <;> rfl

theorem mnemonic_dispatchKey (x x' : BitVec 4) (nn : BitVec 8) :
    (dispatchKey x nn).map Instr.mnemonic = (dispatchKey x' nn).map Instr.mnemonic := by
  unfold dispatchKey
  split <;> rfl

theorem mnemonic_dispatchMisc (x x' : BitVec 4) (nn : BitVec 8) :
    (dispatchMisc x nn).map Instr.mnemonic = (dispatchMisc x' nn).map Instr.mnemonic := by
  unfold dispatchMisc
  split <;> rfl

/-- The dispatch selects by the top nibble; then by `n` under 8, and by `nn` under 0, 0xE and 0xF. -/
theorem mnemonic_decodeWord_congr {w w' : Word} (hop : (fieldsOf w).op = (fieldsOf w').op)
    (hn : (fieldsOf w').op = 0x8 → (fieldsOf w).n = (fieldsOf w').n)
    (hnn : (fieldsOf w').op ∈ [0x0, 0xE, 0xF] → (fieldsOf w).nn = (fieldsOf w').nn) :
    (decodeWord w).map Instr.mnemonic = (decodeWord w').map Instr.mnemonic := by
  unfold decodeWord dispatch
  rw [hop]
  split
  all_goals rename_i h
  case h_1 => rw [hnn (by rw [h]; decide)]
  case h_9 => rw [hn h]; exact mnemonic_dispatchAlu ..
  case h_15 => rw [hnn (by rw [h]; decide)]; exact mnemonic_dispatchKey ..
  case h_16 => rw [hnn (by rw [h]; decide)]; exact mnemonic_dispatchMisc ..
  all_goals rfl

/-- The `n` nibble is the low half of the `nn` byte. -/
theorem n_eq_of_nn_eq {w w' : Word} (h : (fieldsOf w).nn = (fieldsOf w').nn) :
    (fieldsOf w).n = (fieldsOf w').n := by
  rw [← BitVec.toNat_inj, toNat_nn, toNat_nn] at h
  rw [← BitVec.toNat_inj, toNat_n, toNat_n]
  omega

/-- Settles O6: the keys are the top nibble, the low byte and, inside it, the low nibble. -/
theorem dispatchReadsOnlyItsKeys : Obligations.DispatchReadsOnlyItsKeys :=
  fun _ _ hop hnn => mnemonic_decodeWord_congr hop (fun _ => n_eq_of_nn_eq hnn) fun _ => hnn

/-! ### The opcode map -/

/-- Every instruction's word lies in a row of the map that has its mnemonic. -/
theorem rowMatch (i : Instr) : Laws.RowMatch.Statement i := by
  cases i
  all_goals simp only [Laws.RowMatch.cls, Laws.RowMatch.ret, Laws.RowMatch.jp, Laws.RowMatch.call,
    Laws.RowMatch.seImm, Laws.RowMatch.sneImm, Laws.RowMatch.seReg, Laws.RowMatch.ldImm,
    Laws.RowMatch.addImm, Laws.RowMatch.ldReg, Laws.RowMatch.and, Laws.RowMatch.xor,
    Laws.RowMatch.addReg, Laws.RowMatch.sub, Laws.RowMatch.shr, Laws.RowMatch.subn,
    Laws.RowMatch.shl, Laws.RowMatch.sneReg, Laws.RowMatch.ldI, Laws.RowMatch.jpV0,
    Laws.RowMatch.rnd, Laws.RowMatch.drw, Laws.RowMatch.skp, Laws.RowMatch.sknp,
    Laws.RowMatch.ldVxDt, Laws.RowMatch.ldVxK, Laws.RowMatch.ldDtVx, Laws.RowMatch.ldStVx,
    Laws.RowMatch.addIVx, Laws.RowMatch.ldFVx, Laws.RowMatch.ldBVx, Laws.RowMatch.ldMemVx,
    Laws.RowMatch.ldVxMem]

/-- A row is determined by its mnemonic. -/
theorem opcodeMap_mnemonic_inj : ∀ r ∈ opcodeMap, ∀ q ∈ opcodeMap, r.mnemonic = q.mnemonic → r = q := by
  decide

/-- A row's mask covers the fields its top nibble selects by. -/
theorem opcodeMap_mask_covers_keys : ∀ r ∈ opcodeMap,
    (fieldsOf r.mask).op = 0xF ∧ ((fieldsOf r.value).op = 0x8 → (fieldsOf r.mask).n = 0xF) ∧
    ((fieldsOf r.value).op ∈ [0x0, 0xE, 0xF] → (fieldsOf r.mask).nn = 0xFF) := by
  decide

/-- A row's match value is itself a word of the row's instruction. -/
theorem opcodeMap_value : ∀ r ∈ opcodeMap,
    (decodeWord r.value).map Instr.mnemonic = some r.mnemonic := by
  decide

/-- An instruction reads every bit its row's mask looks at. -/
theorem mask_le_readMask (i : Instr) :
    ∀ r ∈ opcodeMap, r.mnemonic = i.mnemonic → i.readMask &&& r.mask = r.mask := by
  cases i
  all_goals
    simp only [Instr.mnemonic, Instr.readMask]
    decide

theorem op_and (w m : Word) : (fieldsOf (w &&& m)).op = (fieldsOf w).op &&& (fieldsOf m).op :=
  BitVec.extractLsb'_and ..

theorem n_and (w m : Word) : (fieldsOf (w &&& m)).n = (fieldsOf w).n &&& (fieldsOf m).n :=
  BitVec.extractLsb'_and ..

theorem nn_and (w m : Word) : (fieldsOf (w &&& m)).nn = (fieldsOf w).nn &&& (fieldsOf m).nn :=
  BitVec.extractLsb'_and ..

/-- A word that matches a row agrees with the row's match value on every key, so it is the same
instruction. -/
theorem mnemonic_of_matches {w : Word} {r : OpcodeRow} (hr : r ∈ opcodeMap) (h : w &&& r.mask = r.value) :
    (decodeWord w).map Instr.mnemonic = some r.mnemonic := by
  obtain ⟨hop, hn, hnn⟩ := opcodeMap_mask_covers_keys r hr
  rw [← opcodeMap_value r hr]
  refine mnemonic_decodeWord_congr ?_ (fun h8 => ?_) (fun hx => ?_)
  · rw [← h, op_and, hop, Laws.RowMatch.and_nibble]
  · conv_rhs => rw [← h, n_and, hn h8, Laws.RowMatch.and_nibble]
  · conv_rhs => rw [← h, nn_and, hnn hx, Laws.RowMatch.and_byte]

/-- A word that decodes matches the row of its instruction: the row sees only bits that the instruction
reads, and on those the word is the instruction's own. -/
theorem matches_of_decodeWord {w : Word} {i : Instr} {r : OpcodeRow} (hr : r ∈ opcodeMap)
    (hd : decodeWord w = some i) (hm : i.mnemonic = r.mnemonic) : w &&& r.mask = r.value := by
  obtain ⟨q, hq, hqm, hqw⟩ := rowMatch i
  obtain rfl := opcodeMap_mnemonic_inj q hq r hr (hqm.trans hm)
  obtain ⟨-, hencode⟩ := reencodes_of_decodeWord hd
  calc w &&& q.mask = w &&& (i.readMask &&& q.mask) := by rw [mask_le_readMask i q hq hqm]
    _ = encode i &&& q.mask := by rw [hencode, BitVec.and_assoc]
    _ = q.value := eq_of_beq hqw

/-- Settles O3: the two directions are the two lemmas above. -/
theorem decoderAgreesWithOpcodeMap : Obligations.DecoderAgreesWithOpcodeMap := by
  intro w r hr
  refine ⟨fun h => ?_, fun ⟨i, hd, hm⟩ => matches_of_decodeWord hr hd hm⟩
  exact Option.map_eq_some_iff.1 (mnemonic_of_matches hr h)

/-! ### The unsupported words -/

theorem dispatchZero_eq_none_iff (nn : BitVec 8) :
    dispatchZero nn = none ↔ nn.toNat ≠ 0xE0 ∧ nn.toNat ≠ 0xEE := by
  unfold dispatchZero
  split <;> simp_all [← BitVec.toNat_inj]

theorem dispatchKey_eq_none_iff (x : BitVec 4) (nn : BitVec 8) :
    dispatchKey x nn = none ↔ nn.toNat ≠ 0x9E ∧ nn.toNat ≠ 0xA1 := by
  unfold dispatchKey
  split <;> simp_all [← BitVec.toNat_inj]

theorem dispatchMisc_eq_none_iff (x : BitVec 4) (nn : BitVec 8) :
    dispatchMisc x nn = none ↔
      nn.toNat ∉ [0x07, 0x0A, 0x15, 0x18, 0x1E, 0x29, 0x33, 0x55, 0x65] := by
  unfold dispatchMisc
  split <;> simp_all [← BitVec.toNat_inj]

theorem dispatchAlu_eq_none_iff (x y n : BitVec 4) :
    dispatchAlu x y n = none ↔ n.toNat ∈ [0x1, 0x8, 0x9, 0xA, 0xB, 0xC, 0xD, 0xF] := by
  have := n.isLt
  unfold dispatchAlu
  split <;> simp_all [← BitVec.toNat_inj]
  omega

/-- Settles O4: the four top nibbles that select by a second field each leave some values of it out; the
other twelve name an instruction at once. -/
theorem unsupportedWordsAreExactlyThese : Obligations.UnsupportedWordsAreExactlyThese := by
  intro w
  have hlt := (fieldsOf w).op.isLt
  rw [← toNat_op, ← toNat_nn, ← toNat_n, ← dispatchZero_eq_none_iff,
    ← dispatchAlu_eq_none_iff (fieldsOf w).x (fieldsOf w).y, ← dispatchKey_eq_none_iff (fieldsOf w).x,
    ← dispatchMisc_eq_none_iff (fieldsOf w).x]
  unfold decodeWord dispatch
  split
  case h_17 => simp_all [← BitVec.toNat_inj]; omega
  all_goals rename_i hop; simp [hop]

/-- Settles O7: the words are evaluated. -/
theorem sampleWordsDecode : Obligations.SampleWordsDecode := by
  unfold Obligations.SampleWordsDecode
  decide

end Sys2Proof
end

section
/-! PROOFS. Frames: what each update of the state leaves as before (40_step_fetch_decode.md R86). -/

namespace Sys2Proof.Machine

/-! ### Frames combined -/

theorem Frame.refl (A : Set Part) (s : State) : Frame A s s := by
  intro p _
  cases p <;> rfl

theorem Frame.mono {A B : Set Part} {s t : State} (h : Frame A s t) (hAB : A ⊆ B) : Frame B s t :=
  fun p hp => h p (mt (@hAB p) hp)

theorem Part.Same.trans {p : Part} {s t u : State} (h : p.Same s t) (h' : p.Same t u) : p.Same s u := by
  cases p <;> exact Eq.trans h' h

theorem Frame.trans {A : Set Part} {s t u : State} (h : Frame A s t) (h' : Frame A t u) : Frame A s u :=
  fun p hp => (h p hp).trans (h' p hp)

/-! ### The control part -/

theorem State.frame_callTo (s : State) (a : Word) : Frame {.pc, .stack} s (s.callTo a) := by
  intro p hp
  cases p with
  | pc => exact absurd (.inl rfl) hp
  | stack => exact absurd (.inr rfl) hp
  | _ => rfl

theorem State.frame_returnTo (s : State) (a : Word) (rest : List Word) :
    Frame {.pc, .stack} s (s.returnTo a rest) := by
  intro p hp
  cases p with
  | pc => exact absurd (.inl rfl) hp
  | stack => exact absurd (.inr rfl) hp
  | _ => rfl

/-! ### Registers and timers -/

/-- A result and its flag: `Vx` and `VF` are written, whichever is last. -/
theorem State.frame_setResultFlag_advance (s : State) (x : Reg) (b : Byte) (c : Bool) :
    Frame {.pc, .v x, .v VF} s (s.setResultFlag x b c).advance := by
  intro p hp
  cases p with
  | pc => exact absurd (.inl rfl) hp
  | v r =>
    have hx : r ≠ x := fun h => hp (.inr (.inl (congrArg Part.v h)))
    have hF : r ≠ VF := fun h => hp (.inr (.inr (congrArg Part.v h)))
    simp only [Part.Same, State.getV_advance, State.getV_setResultFlag, if_neg hF, if_neg hx]
  | _ => simp [Part.Same]

theorem State.frame_setResultCarry_advance (s : State) (x : Reg) (b : Byte) (c : Bool) :
    Frame {.pc, .v x, .v VF} s (s.setResultCarry x b c).advance := by
  intro p hp
  cases p with
  | pc => exact absurd (.inl rfl) hp
  | v r =>
    have hx : r ≠ x := fun h => hp (.inr (.inl (congrArg Part.v h)))
    have hF : r ≠ VF := fun h => hp (.inr (.inr (congrArg Part.v h)))
    simp [Part.Same, State.getV_setResultCarry, hF, hx]
  | _ => simp [Part.Same]

theorem State.frame_setSt_advance (s : State) (b : Byte) : Frame {.pc, .st} s (s.setSt b).advance := by
  intro p hp
  cases p with
  | pc => exact absurd (.inl rfl) hp
  | st => exact absurd (.inr rfl) hp
  | _ => rfl

/-- The random byte used up counts one draw besides the register written. -/
theorem State.frame_rndUsed_setV_advance (s : State) (x : Reg) (b : Byte) :
    Frame {.pc, .v x, .rndCount} s (s.rndUsed.setV x b).advance := by
  intro p hp
  cases p with
  | pc => exact absurd (.inl rfl) hp
  | rndCount => exact absurd (.inr (.inr rfl)) hp
  | v r =>
    have hr : r ≠ x := fun h => hp (.inr (.inl (congrArg Part.v h)))
    exact s.rndUsed.getV_setV_ne x r b hr
  | _ => rfl

/-- A block load writes the registers the bytes reach. -/
theorem State.frame_loadV_advance (s : State) (bs : List Byte) :
    Frame {p | p = .pc ∨ ∃ r : Reg, r.val < bs.length ∧ p = .v r} s (s.loadV bs).advance := by
  intro p hp
  cases p with
  | pc => exact absurd (.inl rfl) hp
  | v r =>
    have hr : bs.length ≤ r.val := Nat.le_of_not_lt fun h => hp (.inr ⟨r, h, rfl⟩)
    simp [Part.Same, List.getElem?_eq_none hr]
  | _ => simp [Part.Same]

/-! ### Memory -/

/-- A store writes the bytes of its block. -/
theorem State.frame_storeBytes (s : State) (a : Nat) (bs : List Byte) :
    Frame {p | ∃ k, k < bs.length ∧ p = .mem (a + k)} s (s.storeBytes a bs) := by
  intro p hp
  cases p with
  | mem c =>
    have hout : ¬(a ≤ c ∧ c < a + bs.length) := by
      rintro ⟨h1, h2⟩
      exact hp ⟨c - a, by omega, congrArg Part.mem (by omega)⟩
    exact (s.readMem_storeBytes a bs c).trans (if_neg hout)
  | _ => rfl

theorem State.frame_storeBytes_advance (s : State) (a : Nat) (bs : List Byte) :
    Frame {p | p = .pc ∨ ∃ k, k < bs.length ∧ p = .mem (a + k)} s (s.storeBytes a bs).advance :=
  ((s.frame_storeBytes a bs).mono fun _ => .inr).trans
    (((s.storeBytes a bs).frame_setPc _).mono fun _ => .inl)

/-! ### The display -/

theorem State.frame_setFb_advance (s : State) (fb : FrameBuffer) :
    Frame {p | p = .pc ∨ ∃ c r, p = .cell c r} s (s.setFb fb).advance := by
  intro p hp
  cases p with
  | pc => exact absurd (.inl rfl) hp
  | cell c r => exact absurd (.inr ⟨c, r, rfl⟩) hp
  | _ => rfl

theorem State.frame_setFb_setFlag_advance (s : State) (fb : FrameBuffer) (b : Byte) :
    Frame {p | p = .pc ∨ p = .v VF ∨ ∃ c r, p = .cell c r} s ((s.setFb fb).setFlag b).advance := by
  intro p hp
  cases p with
  | pc => exact absurd (.inl rfl) hp
  | cell c r => exact absurd (.inr (.inr ⟨c, r, rfl⟩)) hp
  | v r =>
    have hr : r ≠ VF := fun h => hp (.inr (.inl (congrArg Part.v h)))
    exact (s.setFb fb).getV_setV_ne VF r b hr
  | _ => rfl

end Sys2Proof.Machine
end

section
/-! PROOFS. What one instruction can do to each part of the machine, for every instruction at once. -/

namespace Sys2Proof.Machine

/-! ### Block accesses in range (R45) -/

theorem exec_drw_in (x y : Reg) {n : Nat} {s : State} (h : n = 0 ∨ s.i.toNat + n - 1 < 4096) :
    exec (.drw x y n) s = .next
      (let drawn := drawSprite (s.getV x).toNat (s.blockAtI n) (s.getV y).toNat s.fb
       ((s.setFb drawn.1).setFlag (flagByte drawn.2)).advance) :=
  congrArg Host.Outcome.next (withRange_in s _ h)

theorem in_of_not_raises_drw {s : State} {x y : Reg} {n : Nat} (h : ¬Raises s (.drw x y n)) :
    n = 0 ∨ s.i.toNat + n - 1 < 4096 := by
  simp only [Raises] at h
  omega

theorem exec_ldBVx_in (x : Reg) {s : State} (h : s.i.toNat + 2 < 4096) :
    exec (.ldBVx x) s = .next (s.storeBytes s.i.toNat (bcdDigits (s.getV x))).advance :=
  congrArg Host.Outcome.next (withRange_in s _ (.inr h))

theorem exec_ldMemVx_in (x : Reg) {s : State} (h : s.i.toNat + x.val < 4096) :
    exec (.ldMemVx x) s = .next (s.storeBytes s.i.toNat (s.blockOfV x)).advance :=
  congrArg Host.Outcome.next (withRange_in s _ (.inr h))

theorem exec_ldVxMem_in (x : Reg) {s : State} (h : s.i.toNat + x.val < 4096) :
    exec (.ldVxMem x) s = .next (s.loadV (s.blockAtI (x.val + 1))).advance :=
  congrArg Host.Outcome.next (withRange_in s _ (.inr h))

@[simp] theorem State.length_blockAtI (s : State) (k : Nat) : (s.blockAtI k).length = k :=
  MemoryLaws.length_readBytes s.mem s.base k

/-! ### The frame -/

/-- The three digits go to `I` to `I + 2` and nowhere else. -/
theorem State.frame_ldBVx (s : State) (x : Reg) :
    Frame {p | p = .pc ∨ ∃ k, k < 3 ∧ p = .mem (s.i.toNat + k)} s
      (s.storeBytes s.i.toNat (bcdDigits (s.getV x))).advance :=
  s.frame_storeBytes_advance s.i.toNat (bcdDigits (s.getV x))

/-- The registers `V0` to `Vx` go to `I` to `I + x` and nowhere else. -/
theorem State.frame_ldMemVx (s : State) (x : Reg) :
    Frame {p | p = .pc ∨ ∃ k, k ≤ x.val ∧ p = .mem (s.i.toNat + k)} s
      (s.storeBytes s.i.toNat (s.blockOfV x)).advance :=
  (s.frame_storeBytes_advance s.i.toNat (s.blockOfV x)).mono fun _ =>
    .imp_right fun ⟨k, hk, hp⟩ => ⟨k, Nat.le_of_lt_succ (by simpa using hk), hp⟩

/-- The bytes from `I` on go to `V0` to `Vx` and nowhere else. -/
theorem State.frame_ldVxMem (s : State) (x : Reg) :
    Frame {p | p = .pc ∨ ∃ r : Reg, r ≤ x ∧ p = .v r} s (s.loadV (s.blockAtI (x.val + 1))).advance :=
  (s.frame_loadV_advance (s.blockAtI (x.val + 1))).mono fun _ =>
    .imp_right fun ⟨r, hr, hp⟩ => ⟨r, Nat.le_of_lt_succ (by simpa using hr), hp⟩

/-- Settles O53: an instruction that does not raise is one update of the state, and each update has its
frame. -/
theorem everyInstructionKeepsItsFrame : Obligations.EveryInstructionKeepsItsFrame := by
  intro i s t h hr
  cases i with
  | ret =>
    obtain ⟨hs, -⟩ | ⟨a, rest, -, rfl⟩ := execRet_cases h
    · exact absurd hs hr
    · exact s.frame_returnTo a rest
  | call nnn =>
    obtain ⟨hs, -⟩ | ⟨-, rfl⟩ := execCall_cases h
    · exact absurd hs hr
    · exact s.frame_callTo (addr12 nnn)
  | ldVxK x =>
    obtain ⟨-, rfl⟩ | ⟨k, -, rfl⟩ := execLdVxK_cases h
    · exact .refl _ t
    · exact s.frame_setV_advance x _
  | drw x y n =>
    cases (exec_drw_in x y (in_of_not_raises_drw hr)).symm.trans h
    exact s.frame_setFb_setFlag_advance _ _
  | ldBVx x =>
    cases (exec_ldBVx_in x (Nat.lt_of_not_le hr)).symm.trans h
    exact s.frame_ldBVx x
  | ldMemVx x =>
    cases (exec_ldMemVx_in x (Nat.lt_of_not_le hr)).symm.trans h
    exact s.frame_ldMemVx x
  | ldVxMem x =>
    cases (exec_ldVxMem_in x (Nat.lt_of_not_le hr)).symm.trans h
    exact s.frame_ldVxMem x
  | cls => cases h; exact s.frame_setFb_advance _
  | jp | jpV0 => cases h; exact s.frame_setPc _
  | seImm | sneImm | seReg | sneReg | skp | sknp => cases h; exact s.frame_skipIf _
  | ldImm | addImm | ldReg | and | xor | ldVxDt => cases h; exact s.frame_setV_advance _ _
  | sub | subn | shr | shl => cases h; exact s.frame_setResultFlag_advance _ _ _
  | addReg => cases h; exact s.frame_setResultCarry_advance _ _ _
  | ldI | addIVx | ldFVx => cases h; exact s.frame_setI_advance _
  | rnd => cases h; exact s.frame_rndUsed_setV_advance _ _
  | ldDtVx => cases h; exact s.frame_setDt_advance _
  | ldStVx => cases h; exact s.frame_setSt_advance _

/-! ### Memory and the control part -/

/-- Memory as data after an instruction: the same, or with a block stored in range. -/
theorem exec_mem {i : Instr} {s t : State} (h : exec i s = .next t) :
    t.mem = s.mem ∨ ∃ bs, s.i.toNat + bs.length ≤ 4096 ∧ t.mem = s.mem.writeBytes s.i.toNat bs := by
  obtain ⟨-, c, rfl⟩ | ⟨hr, -⟩ := exec_cases h
  · exact .inl rfl
  cases i with
  | ret =>
    obtain ⟨-, rfl⟩ | ⟨a, rest, -, rfl⟩ := execRet_cases h <;> exact .inl rfl
  | call nnn =>
    obtain ⟨-, rfl⟩ | ⟨-, rfl⟩ := execCall_cases h <;> exact .inl rfl
  | ldVxK x =>
    obtain ⟨-, rfl⟩ | ⟨k, -, rfl⟩ := execLdVxK_cases h <;> exact .inl rfl
  | drw x y n =>
    cases (exec_drw_in x y (in_of_not_raises_drw hr)).symm.trans h
    exact .inl rfl
  | ldBVx x =>
    have hin : s.i.toNat + 2 < 4096 := Nat.lt_of_not_le hr
    cases (exec_ldBVx_in x hin).symm.trans h
    exact .inr ⟨bcdDigits (s.getV x), by rw [length_bcdDigits]; omega, rfl⟩
  | ldMemVx x =>
    have hin : s.i.toNat + x.val < 4096 := Nat.lt_of_not_le hr
    cases (exec_ldMemVx_in x hin).symm.trans h
    exact .inr ⟨s.blockOfV x, by rw [State.length_blockOfV]; omega, rfl⟩
  | ldVxMem x =>
    cases (exec_ldVxMem_in x (Nat.lt_of_not_le hr)).symm.trans h
    exact .inl rfl
  | _ => cases h; exact .inl (by simp)

/-- `PC` and the call stack after an instruction: a return takes an entry into `PC`, a call below the bound
adds one, and no other instruction touches the stack. -/
theorem exec_control {i : Instr} {s t : State} (h : exec i s = .next t) :
    (t.stack = s.stack ∧
      (t.pc = s.pc ∨ t.pc = s.pc + 2 ∨ t.pc = s.pc + 4 ∨ t.pc.toNat ≤ 4350)) ∨
    (i = .ret ∧ s.stack = t.pc :: t.stack) ∨
    ∃ nnn, i = .call nnn ∧ s.sp ≠ 16 ∧ t = s.callTo (addr12 nnn) := by
  obtain ⟨-, c, rfl⟩ | ⟨hr, -⟩ := exec_cases h
  · exact .inl ⟨rfl, .inl rfl⟩
  cases i with
  | ret =>
    obtain ⟨hs, -⟩ | ⟨a, rest, hs, rfl⟩ := execRet_cases h
    · exact absurd hs hr
    · exact .inr (.inl ⟨rfl, hs⟩)
  | call nnn =>
    obtain ⟨hs, -⟩ | ⟨hs, rfl⟩ := execCall_cases h
    · exact absurd hs hr
    · exact .inr (.inr ⟨nnn, rfl, hs, rfl⟩)
  | jp nnn =>
    cases h
    have := nnn.isLt
    exact .inl ⟨rfl, .inr (.inr (.inr (by rw [State.setPc_pc, toNat_addr12]; omega)))⟩
  | jpV0 nnn =>
    cases h
    have := nnn.isLt
    have := (s.getV 0).isLt
    exact .inl ⟨rfl, .inr (.inr (.inr (by rw [State.setPc_pc, toNat_zextByte_add_addr12]; omega)))⟩
  | seImm | sneImm | seReg | sneReg | skp | sknp =>
    cases h
    refine .inl ⟨rfl, ?_⟩
    rw [State.skipIf_pc]
    split
    · exact .inr (.inr (.inl rfl))
    · exact .inr (.inl rfl)
  | ldVxK x =>
    obtain ⟨-, rfl⟩ | ⟨k, -, rfl⟩ := execLdVxK_cases h
    · exact .inl ⟨rfl, .inl rfl⟩
    · exact .inl ⟨rfl, .inr (.inl rfl)⟩
  | drw x y n =>
    cases (exec_drw_in x y (in_of_not_raises_drw hr)).symm.trans h
    exact .inl ⟨rfl, .inr (.inl rfl)⟩
  | ldBVx x =>
    cases (exec_ldBVx_in x (Nat.lt_of_not_le hr)).symm.trans h
    exact .inl ⟨rfl, .inr (.inl rfl)⟩
  | ldMemVx x =>
    cases (exec_ldMemVx_in x (Nat.lt_of_not_le hr)).symm.trans h
    exact .inl ⟨rfl, .inr (.inl rfl)⟩
  | ldVxMem x =>
    cases (exec_ldVxMem_in x (Nat.lt_of_not_le hr)).symm.trans h
    exact .inl ⟨rfl, .inr (.inl rfl)⟩
  | _ => cases h; exact .inl ⟨by simp, .inr (.inl (by simp))⟩

/-- Settles O58: the stack's part of the inversion lemma. -/
theorem stackDepthMovesOnlyByCallAndReturn : Obligations.StackDepthMovesOnlyByCallAndReturn := by
  intro i s t h
  obtain ⟨hs, -⟩ | ⟨hi, hs⟩ | ⟨nnn, hi, hsp, rfl⟩ := exec_control h
  · exact .inl hs
  · exact .inr (.inl ⟨hi, by simp only [State.sp, hs, List.length_cons]⟩)
  · exact .inr (.inr ⟨nnn, hi, rfl, hsp⟩)

end Sys2Proof.Machine
end

section
/-! PROOFS. The invariant of the machine, at reset and over every step (10_state.md R15, R16, R23, R24). -/

namespace Sys2Proof.Machine

/-! ### Parts of the invariant -/

/-- The invariant but for the random byte, which a `step(rnd)` event offers while it runs. -/
structure CpuInv (s : State) : Prop where
  mem : s.mem.wf = true
  depth : s.sp ≤ Config.stackDepth
  range : PcOk s
  error : ErrOk s
  booted : s.halt = true → s.env.booting = false

theorem Inv.cpuInv {s : State} (h : Inv s) : CpuInv s := ⟨h.mem, h.depth, h.range, h.error, h.booted⟩

theorem CpuInv.inv {s : State} (h : CpuInv s) (hrnd : s.env.rndIn = none) : Inv s :=
  ⟨h.mem, h.depth, h.range, h.error, hrnd, h.booted⟩

theorem ErrOk.congr {s t : State} (h : ErrOk s) (hhalt : t.halt = s.halt) (herr : t.err = s.err) :
    ErrOk t where
  clear := by rw [hhalt, herr]; exact h.clear
  named := by rw [hhalt, herr]; exact h.named
  noWord := by rw [herr]; exact h.noWord
  noAddr := by rw [herr]; exact h.noAddr

/-- An update of anything else keeps the invariant, if a halted machine stays past its boot. -/
theorem CpuInv.congr {s t : State} (h : CpuInv s) (hmem : t.mem = s.mem) (hstack : t.stack = s.stack)
    (hpc : t.pc = s.pc) (hhalt : t.halt = s.halt) (herr : t.err = s.err)
    (hboot : t.halt = true → t.env.booting = false) : CpuInv t where
  mem := by rw [hmem]; exact h.mem
  depth := by rw [State.sp, hstack]; exact h.depth
  range := ⟨by rw [hpc]; exact h.range.pc, by rw [hstack]; exact h.range.stack⟩
  error := h.error.congr hhalt herr
  booted := hboot

theorem CpuInv.leaveBoot {s : State} (h : CpuInv s) : CpuInv s.leaveBoot :=
  h.congr rfl rfl rfl rfl rfl fun _ => rfl

theorem CpuInv.takeEvent {s : State} (h : CpuInv s) : CpuInv s.takeEvent :=
  h.congr rfl rfl rfl rfl rfl fun hh => (Env.take_booting _).trans (h.booted hh)

theorem CpuInv.offerRnd {s : State} (h : CpuInv s) (b : Option Byte) : CpuInv (s.offerRnd b) :=
  h.congr rfl rfl rfl rfl rfl h.booted

/-! ### Fatal conditions -/

/-- The record of a fatal condition is as R24 wants it: named, with no word where none was fetched, and an
address only for MemoryOutOfBounds. -/
theorem errOk_raiseWith (c : Condition) (w : Option Word) (s : State) : ErrOk (raiseWith c w s) where
  clear := fun h => Bool.noConfusion h
  named := fun _ => c.code_ne_none
  noWord := fun h => by
    obtain rfl : w = none := by simpa [errorOf] using h
    rfl
  noAddr := fun h => by
    cases c with
    | memoryOutOfBounds a => exact absurd rfl h
    | _ => rfl

theorem CpuInv.raiseWith {s : State} (h : CpuInv s) (hboot : s.env.booting = false) (c : Condition)
    (w : Option Word) : CpuInv (raiseWith c w s) where
  mem := h.mem
  depth := h.depth
  range := ⟨h.range.pc, h.range.stack⟩
  error := errOk_raiseWith c w s
  booted := fun _ => hboot

/-! ### One instruction -/

/-- An instruction leaves the host's side alone, but for the counter of random bytes. -/
theorem exec_hostSame {i : Instr} {s t : State} (h : exec i s = .next t) : HostSame s t := by
  obtain ⟨-, c, rfl⟩ | ⟨-, -, -, hsame⟩ := exec_cases h
  · exact hostSame_raiseWith c _ s
  · exact hsame

theorem wf_mem_of_exec {i : Instr} {s t : State} (h : exec i s = .next t) (hs : s.mem.wf = true) :
    t.mem.wf = true := by
  obtain hm | ⟨bs, hlen, hm⟩ := exec_mem h <;> rw [hm]
  · exact hs
  · exact MemoryLaws.wf_writeBytes bs hs hlen

theorem depth_of_exec {i : Instr} {s t : State} (h : exec i s = .next t)
    (hs : s.sp ≤ Config.stackDepth) : t.sp ≤ Config.stackDepth := by
  have hs' : s.sp ≤ 16 := hs
  show t.sp ≤ 16
  obtain hst | ⟨-, hsp⟩ | ⟨nnn, -, hsp, hne⟩ := stackDepthMovesOnlyByCallAndReturn i s t h
  · rwa [State.sp, hst]
  · omega
  · omega

/-- `PC` and the return addresses stay in range when the instruction was fetched in memory: it moves `PC` on
by at most 4, jumps to at most 0xFF + 0xFFF, or returns to an address that was pushed. -/
theorem pcOk_of_exec {i : Instr} {s t : State} (h : exec i s = .next t)
    (hpc : s.pc.toNat + 1 < 4096) (hs : PcOk s) : PcOk t := by
  have h2 : (s.pc + 2).toNat = s.pc.toNat + 2 :=
    s.advance_toNat.trans (Nat.mod_eq_of_lt (by omega))
  have h4 : (s.pc + 4).toNat = s.pc.toNat + 4 :=
    (s.skipIf_toNat true).trans (Nat.mod_eq_of_lt (show s.pc.toNat + 4 < 65536 by omega))
  obtain ⟨hst, htpc⟩ | ⟨-, hst⟩ | ⟨nnn, -, -, rfl⟩ := exec_control h
  · refine ⟨?_, hst ▸ hs.stack⟩
    obtain e | e | e | e := htpc
    · rw [e]; exact hs.pc
    · rw [e, h2]; omega
    · rw [e, h4]; omega
    · exact e
  · have hall := hs.stack
    rw [hst, List.forall_mem_cons] at hall
    obtain ⟨hhead, hrest⟩ := hall
    exact ⟨hhead.trans (by decide), hrest⟩
  · have := nnn.isLt
    refine ⟨by rw [State.callTo_pc, toNat_addr12]; omega, ?_⟩
    rw [State.callTo_stack, List.forall_mem_cons, h2]
    exact ⟨hpc, hs.stack⟩

theorem CpuInv.exec {i : Instr} {s t : State} (hs : CpuInv s) (hboot : s.env.booting = false)
    (hpc : s.pc.toNat + 1 < 4096) (h : exec i s = .next t) : CpuInv t where
  mem := wf_mem_of_exec h hs.mem
  depth := depth_of_exec h hs.depth
  range := pcOk_of_exec h hpc hs.range
  error := by
    obtain ⟨-, c, rfl⟩ | ⟨-, hhalt, herr, -⟩ := exec_cases h
    · exact errOk_raiseWith c _ s
    · exact hs.error.congr hhalt herr
  booted := fun _ => (exec_hostSame h).booting.trans hboot

/-! ### The CPU's step and the events -/

/-- The CPU's step keeps the invariant and the byte offered to it. -/
theorem CpuInv.cpuStep {s t : State} (hs : CpuInv s) (h : cpuStep s = .next t) :
    CpuInv t ∧ t.env.rndIn = s.env.rndIn := by
  cases hh : s.halt with
  | true =>
    cases (cpuStep_halted hh).symm.trans h
    exact ⟨hs, rfl⟩
  | false =>
    rw [cpuStep_running hh] at h
    have hl := hs.leaveBoot
    obtain ⟨-, hr⟩ | ⟨-, -, hr⟩ | ⟨i, hpc, -, hr⟩ := runCycle_cases s.leaveBoot
    · cases hr.symm.trans h
      exact ⟨hl.raiseWith rfl _ _, rfl⟩
    · cases hr.symm.trans h
      exact ⟨hl.raiseWith rfl _ _, rfl⟩
    · have he := hr.symm.trans h
      exact ⟨hl.exec rfl hpc he, (exec_hostSame he).rndIn⟩

/-- The reset state meets the invariant: nothing stored, nothing pushed, nothing raised. -/
theorem inv_reset : Inv State.reset where
  mem := rfl
  depth := by decide
  range := ⟨by decide, fun _ h => by cases h⟩
  error := ⟨fun _ => rfl, fun h => Bool.noConfusion h, fun _ => rfl, fun _ => rfl⟩
  rnd := rfl
  booted := fun h => Bool.noConfusion h

/-- Every event keeps the invariant. -/
theorem Inv.deliver {e : Event} {s t : State} (hs : Inv s) (h : deliver e s = .next t) : Inv t := by
  have hc := hs.cpuInv
  obtain ⟨-, rfl⟩ | ⟨image, -, -, ⟨-, rfl⟩ | ⟨hlen, rfl⟩⟩ | ⟨rnd, u, -, hu, rfl⟩ | ⟨-, rfl⟩ |
    ⟨k, -, rfl⟩ | ⟨-, rfl⟩ := deliver_cases h
  · have hr : CpuInv (resetEvent s) :=
      inv_reset.cpuInv.congr rfl rfl rfl rfl rfl fun hh => Bool.noConfusion hh
    exact hr.inv rfl
  · exact (hc.leaveBoot.raiseWith rfl _ _).inv hs.rnd
  · refine CpuInv.inv ⟨?_, hs.depth, ⟨hs.range.pc, hs.range.stack⟩, hs.error.congr rfl rfl,
      fun _ => rfl⟩ hs.rnd
    exact MemoryLaws.wf_writeBytes image hs.mem (by show 0x200 + _ ≤ 4096; omega)
  · exact ((hc.offerRnd _).cpuStep hu).1.offerRnd none |>.inv rfl
  · have ht : CpuInv (tickEvent s) := hc.congr rfl rfl rfl rfl rfl hs.booted
    exact ht.inv hs.rnd
  · have hk : CpuInv (setKeyEvent k s) := hc.congr rfl rfl rfl rfl rfl hs.booted
    exact hk.inv hs.rnd
  · exact hs

/-- Settles O55: the CPU's own step and every event keep the invariant. -/
theorem everyStepKeepsTheInvariant : Obligations.EveryStepKeepsTheInvariant := by
  intro s t hs h
  obtain ⟨-, hcpu⟩ | ⟨e, -, he⟩ := step_cases h
  · obtain ⟨ht, hrnd⟩ := hs.cpuInv.cpuStep hcpu
    exact ht.inv (hrnd.trans hs.rnd)
  · exact (hs.cpuInv.takeEvent.inv ((Env.take_rndIn _).trans hs.rnd)).deliver he

/-- Settles O54: the base case of the invariant. -/
theorem invariantHoldsAtReset : Obligations.InvariantHoldsAtReset := inv_reset

/-! ### A halted machine -/

/-- Settles O56: of the events, `load` cannot come to a halted machine, a `step` finds it halted, and
`tick` and `set_key` write `DT` and `KEY` alone. -/
theorem onlyResetLeavesHalt : Obligations.OnlyResetLeavesHalt := by
  intro s t hs hh h
  obtain ⟨hn, hcpu⟩ | ⟨e, he, hd⟩ := step_cases h
  · cases (cpuStep_halted hh).symm.trans hcpu
    rw [State.takeEvent_of_none hn]
    exact .inr (.refl _ _)
  obtain ⟨rfl, -⟩ | ⟨image, -, hboot, -⟩ | ⟨rnd, u, -, hu, rfl⟩ | ⟨-, rfl⟩ | ⟨k, -, rfl⟩ | ⟨-, rfl⟩ :=
    deliver_cases hd
  · exact .inl he
  · rw [State.takeEvent_env, Env.take_booting, hs.booted hh] at hboot
    cases hboot
  · have hhalted : (s.takeEvent.offerRnd (some rnd)).halt = true := hh
    cases (cpuStep_halted hhalted).symm.trans hu
    refine .inr fun p _ => ?_
    cases p with
    | rndIn => exact ((Env.take_rndIn _).trans hs.rnd).symm
    | _ => rfl
  · refine .inr fun p hp => ?_
    cases p with
    | dt => exact absurd (.inl rfl) hp
    | _ => rfl
  · refine .inr fun p hp => ?_
    cases p with
    | key => exact absurd (.inr rfl) hp
    | _ => rfl
  · exact .inr (.refl _ _)

end Sys2Proof.Machine
end

section
/-! PROOFS. The canonical form of memory determines it (10_state.md R21; log 4). -/

namespace Sys2Proof.Machine

namespace MemoryLaws

theorem wfFrom_cons {lo b : Nat} {v : Byte} {m : Memory} (h : Memory.wfFrom lo ((b, v) :: m) = true) :
    lo ≤ b ∧ v ≠ Memory.blank b ∧ Memory.wfFrom (b + 1) m = true := by
  simp only [Memory.wfFrom, Bool.and_eq_true, decide_eq_true_eq, bne_iff_ne] at h
  obtain ⟨⟨⟨hlo, -⟩, hv⟩, hm⟩ := h
  exact ⟨hlo, hv, hm⟩

/-- Below the first address a canonical list can hold, memory reads as at reset. -/
theorem read_below {m : Memory} {lo a : Nat} (hm : Memory.wfFrom lo m = true) (ha : a < lo) :
    Memory.read m a = Memory.blank a := by
  induction m generalizing lo with
  | nil => rfl
  | cons c m ih =>
    obtain ⟨b, v⟩ := c
    obtain ⟨hlo, -, hrest⟩ := wfFrom_cons hm
    rw [read_cons, if_neg (by show b ≠ a; omega), ih hrest (by omega)]

/-- At the address of its first entry a canonical list does not read as at reset. -/
theorem read_head_ne_blank {lo b : Nat} {v : Byte} {m : Memory}
    (h : Memory.wfFrom lo ((b, v) :: m) = true) : Memory.read ((b, v) :: m) b ≠ Memory.blank b := by
  obtain ⟨-, hv, -⟩ := wfFrom_cons h
  rwa [read_cons, if_pos rfl]

/-- The first entries of two canonical lists with the same bytes are the same: where the earlier one
stands, the other list would read as at reset. -/
theorem eq_of_read_eq {m m' : Memory} {lo lo' : Nat} (hm : Memory.wfFrom lo m = true)
    (hm' : Memory.wfFrom lo' m' = true) (h : ∀ a, Memory.read m a = Memory.read m' a) : m = m' := by
  induction m generalizing lo lo' m' with
  | nil =>
    cases m' with
    | nil => rfl
    | cons c' m' => exact absurd (h c'.1).symm (read_head_ne_blank hm')
  | cons c m ih =>
    cases m' with
    | nil => exact absurd (h c.1) (read_head_ne_blank hm)
    | cons c' m' =>
      obtain ⟨b, v⟩ := c
      obtain ⟨b', v'⟩ := c'
      obtain ⟨-, -, hrest⟩ := wfFrom_cons hm
      obtain ⟨-, -, hrest'⟩ := wfFrom_cons hm'
      obtain rfl : b = b' := by
        rcases Nat.lt_trichotomy b b' with hlt | heq | hlt
        · refine absurd ((h b).trans ?_) (read_head_ne_blank hm)
          rw [read_cons, if_neg (by show b' ≠ b; omega), read_below hrest' (by omega)]
        · exact heq
        · refine absurd ((h b').symm.trans ?_) (read_head_ne_blank hm')
          rw [read_cons, if_neg (by show b ≠ b'; omega), read_below hrest (by omega)]
      obtain rfl : v = v' := by
        have := h b
        rwa [read_cons, read_cons, if_pos rfl, if_pos rfl] at this
      refine congrArg _ (ih hrest hrest' fun a => ?_)
      by_cases ha : b = a
      · rw [read_below hrest (by omega), read_below hrest' (by omega)]
      · have := h a
        rwa [read_cons, read_cons, if_neg ha, if_neg ha] at this

end MemoryLaws

/-- Settles O57: both memories are canonical from address 0 on. -/
theorem canonicalMemoryIsDeterminedByItsBytes : Obligations.CanonicalMemoryIsDeterminedByItsBytes :=
  fun _ _ hm hm' h => MemoryLaws.eq_of_read_eq hm hm' h

end Sys2Proof.Machine
end

section
/-! PROOFS. The step and the fatal conditions (40_step_fetch_decode.md R80 to R85; 60_exceptions.md R150 to
R159). -/

namespace Sys2Proof.Machine

/-! ### The raised state, written out -/

theorem raise_fetched {s : State} (c : Condition) (hpc : s.pc.toNat + 1 < 4096) :
    raise c s = { s with
      halt := true
      err := ⟨c.code, s.pc, true, s.readMem s.pc.toNat ++ s.readMem (s.pc.toNat + 1), c.addr⟩ } := by
  rw [raise, raiseWith, errorOf_fetched c hpc]

theorem raise_unfetched {s : State} (c : Condition) (hpc : 4096 ≤ s.pc.toNat + 1) :
    raise c s = { s with halt := true, err := ⟨c.code, s.pc, false, 0, c.addr⟩ } := by
  rw [raise, fetchedWord_out hpc]
  rfl

/-! ### One cycle, by what is at `PC` -/

theorem decodeWord_of_decodeBytes {hi lo : Byte} {i : Instr} (h : decodeBytes [hi, lo] = .ok (i, [])) :
    decodeWord (hi ++ lo) = some i := by
  simp only [decodeBytes, wordOfBytes] at h
  split at h <;> cases h
  assumption

theorem runCycle_decoded {s : State} {i : Instr} (hpc : s.pc.toNat + 1 < 4096)
    (hd : decodeWord (s.readMem s.pc.toNat ++ s.readMem (s.pc.toNat + 1)) = some i) :
    runCycle s = exec i s := by
  simp only [runCycle, fetch_in hpc, hd]

theorem runCycle_unsupported {s : State} (hpc : s.pc.toNat + 1 < 4096)
    (hd : decodeWord (s.readMem s.pc.toNat ++ s.readMem (s.pc.toNat + 1)) = none) :
    runCycle s = .next { s with
      halt := true
      err := ⟨.unsupportedInstruction, s.pc, true,
        s.readMem s.pc.toNat ++ s.readMem (s.pc.toNat + 1), 0⟩ } := by
  simp only [runCycle, fetch_in hpc, hd]
  exact congrArg _ (raise_fetched _ hpc)

theorem runCycle_out {s : State} (hpc : 4096 ≤ s.pc.toNat + 1) :
    runCycle s = .next { s with
      halt := true
      err := ⟨.memoryOutOfBounds, s.pc, false, 0, BitVec.ofNat 17 (max s.pc.toNat 4096)⟩ } := by
  simp only [runCycle, fetch_out hpc]
  exact congrArg _ (raise_unfetched _ hpc)

/-! ### A step event, by where it comes from -/

theorem step_free {s : State} (hh : s.halt = false) (hp : s.pendingEvent = none) :
    step s = runCycle s.leaveBoot := by
  rw [step_noEvent hp, cpuStep_running hh]

theorem step_rnd {s : State} {rnd : Byte} (hh : s.halt = false) (hp : s.pendingEvent = some (.step rnd)) :
    step s = mapNext (·.offerRnd none) (runCycle (s.takeEvent.offerRnd (some rnd)).leaveBoot) := by
  have hrunning : (s.takeEvent.offerRnd (some rnd)).halt = false := hh
  rw [step_event hp, deliver, stepEvent, cpuStep_running hrunning]

/-- Withdrawing a byte that was not offered changes nothing. -/
theorem State.offerRnd_none_eq {s : State} (h : s.env.rndIn = none) : s.offerRnd none = s := by
  obtain ⟨v, i, pc, stack, dt, st, key, mem, fb, halt, err, ⟨schedule, tail, booting, rndIn, _, _⟩⟩ := s
  obtain rfl : rndIn = none := h
  rfl

/-! ### The step -/

/-- Settles O8: both kinds of step event are one cycle, which runs what the two bytes decode to. -/
theorem stepRunsTheDecodedInstruction : Obligations.StepRunsTheDecodedInstruction := by
  intro s i hh hpc hd
  have hi := decodeWord_of_decodeBytes hd
  refine ⟨fun hp => ?_, fun rnd hp => ?_⟩
  · rw [step_free hh hp]
    exact runCycle_decoded hpc hi
  · rw [step_rnd hh hp]
    exact congrArg _ (runCycle_decoded hpc hi)

/-- Settles O9: the cycle ends at the fetch, and the record has no word. -/
theorem fetchOutOfBoundsRaises : Obligations.FetchOutOfBoundsRaises := by
  intro s hh hpc
  refine ⟨fun hp => ?_, fun rnd hp => ?_⟩
  · rw [step_free hh hp]
    exact runCycle_out (s := s.leaveBoot) hpc
  · rw [step_rnd hh hp]
    exact congrArg (mapNext _) (runCycle_out (s := (s.takeEvent.offerRnd (some rnd)).leaveBoot) hpc)

/-- Settles O10: the cycle ends at the decoder, and the record has the word fetched. -/
theorem unsupportedWordRaises : Obligations.UnsupportedWordRaises := by
  intro s hh hpc hd
  refine ⟨fun hp => ?_, fun rnd hp => ?_⟩
  · rw [step_free hh hp]
    exact runCycle_unsupported (s := s.leaveBoot) hpc hd
  · rw [step_rnd hh hp]
    exact congrArg (mapNext _)
      (runCycle_unsupported (s := (s.takeEvent.offerRnd (some rnd)).leaveBoot) hpc hd)

/-- Settles O11: the CPU's step of a halted machine is the identity, and the byte offered for it is
withdrawn. -/
theorem haltedStepChangesNothing : Obligations.HaltedStepChangesNothing := by
  intro s hh
  refine ⟨fun hp => ?_, fun rnd hrnd hp => ?_⟩
  · rw [step_noEvent hp, cpuStep_halted hh]
  · have hhalted : (s.takeEvent.offerRnd (some rnd)).halt = true := hh
    have htake : s.takeEvent.env.rndIn = none := (Env.take_rndIn _).trans hrnd
    rw [step_event hp, deliver, stepEvent, cpuStep_halted hhalted]
    exact congrArg Host.Outcome.next (State.offerRnd_none_eq htake)

/-! ### Answers and refusals -/

theorem loadEvent_late {s : State} (image : List Byte) (h : s.env.booting = false) :
    loadEvent image s = .refused .loadOutsideBoot := by
  simp [loadEvent, h]

theorem loadEvent_answers {s : State} (image : List Byte) (h : s.env.booting = true) :
    ∃ t, loadEvent image s = .next t := by
  simp only [loadEvent, h, if_true]
  split <;> exact ⟨_, rfl⟩

theorem stepEvent_answers (rnd : Byte) (s : State) : ∃ t, stepEvent rnd s = .next t := by
  obtain ⟨u, hu⟩ := cpuStep_answers (s.offerRnd (some rnd))
  exact ⟨u.offerRnd none, by rw [stepEvent, hu, mapNext]⟩

/-- Settles O12: `load` is the only event that can be refused, and its time decides. -/
theorem everyStepAnswersButForALateLoad : Obligations.EveryStepAnswersButForALateLoad := by
  refine ⟨fun s => ?_, fun s image hp hb => ?_⟩
  · cases hp : s.pendingEvent with
    | none =>
      rw [step_noEvent hp]
      exact .inl (cpuStep_answers s)
    | some e =>
      rw [step_event hp]
      cases e with
      | load image =>
        cases hb : s.env.booting with
        | true => exact .inl (loadEvent_answers image ((Env.take_booting _).trans hb))
        | false => exact .inr ⟨loadEvent_late image ((Env.take_booting _).trans hb), rfl, image, rfl⟩
      | step rnd => exact .inl (stepEvent_answers rnd _)
      | reset | tick | setKey | readFb => exact .inl ⟨_, rfl⟩
  · rw [step_event hp]
    exact loadEvent_late image ((Env.take_booting _).trans hb)

/-! ### A placed word -/

/-- A word can be fetched at the address the model places one at. -/
theorem placeAddr_in (s : State) : (placeAddr s).toNat + 1 < 4096 := by
  unfold placeAddr
  split
  · assumption
  · decide

theorem tableWord_toNat (w : Word) : tableWord 16 w.toNat = w := by
  rw [tableWord, Nat.mod_eq_of_lt w.isLt, BitVec.ofNat_toNat, BitVec.setWidth_eq]

/-- The two bytes at the address placed are the placed word's, high byte first. -/
theorem readMem_placeBytes (s : State) (w : Word) :
    (placeBytes s (bytesOfWord w)).readMem (placeAddr s).toNat ++
      (placeBytes s (bytesOfWord w)).readMem ((placeAddr s).toNat + 1) = w := by
  have hread := s.readMem_storeBytes (placeAddr s).toNat (bytesOfWord w)
  have hhi := hread (placeAddr s).toNat
  have hlo := hread ((placeAddr s).toNat + 1)
  rw [if_pos (by simp [bytesOfWord])] at hhi hlo
  calc _ = wordOfBytes (w.extractLsb' 8 8) (w.extractLsb' 0 8) := by
        refine congrArg₂ wordOfBytes (hhi.trans ?_) (hlo.trans ?_) <;> simp [bytesOfWord]
    _ = w := wordOfBytes_bytes w

/-- Settles O13: the placed state runs with no event queued, and fetches the placed word. -/
theorem placedWordIsTheNextInstruction : Obligations.PlacedWordIsTheNextInstruction := by
  intro s w i hd
  rw [State.withFetchWord, tableWord_toNat, step_free rfl rfl]
  refine runCycle_decoded (placeAddr_in s) ?_
  exact (congrArg decodeWord (readMem_placeBytes s w)).trans hd

/-! ### Fatal conditions -/

/-- An instruction that halts a running machine raised a condition. -/
theorem exec_raises {i : Instr} {s t : State} (h : exec i s = .next t) (hs : s.halt = false)
    (ht : t.halt = true) : ∃ c, t = raise c s := by
  obtain ⟨-, hc⟩ | ⟨-, hhalt, -⟩ := exec_cases h
  · exact hc
  · simp [hhalt, hs] at ht

/-- A step of the CPU that halts a running machine raised a condition, with the time for `load` over. -/
theorem cpuStep_raises {s t : State} (h : cpuStep s = .next t) (hs : s.halt = false)
    (ht : t.halt = true) : ∃ c, t = raise c s.leaveBoot := by
  rw [cpuStep_running hs] at h
  obtain ⟨-, hr⟩ | ⟨-, -, hr⟩ | ⟨i, -, -, hr⟩ := runCycle_cases s.leaveBoot
  · exact ⟨_, (Host.Outcome.next.inj (hr.symm.trans h)).symm⟩
  · exact ⟨_, (Host.Outcome.next.inj (hr.symm.trans h)).symm⟩
  · exact exec_raises (hr.symm.trans h) hs ht

/-- Every way a step halts a running machine: a step event raised a condition with the word at `PC`, or a
`load` was too long. -/
theorem step_raises {s t : State} (hs : s.halt = false) (hrnd : s.env.rndIn = none)
    (h : step s = .next t) (ht : t.halt = true) :
    ∃ c, ((∀ image, s.pendingEvent ≠ some (.load image)) ∧
        t = raiseWith c (fetchedWord s) s.takeEvent.leaveBoot) ∨
      ((∃ image, s.pendingEvent = some (.load image)) ∧ t = raiseWith c none s.takeEvent.leaveBoot) := by
  have running : t.halt = s.halt → False := fun he => by simp [he, hs] at ht
  obtain ⟨hn, hcpu⟩ | ⟨e, he, hd⟩ := step_cases h
  · obtain ⟨c, rfl⟩ := cpuStep_raises hcpu hs ht
    refine ⟨c, .inl ⟨by simp [hn], ?_⟩⟩
    rw [State.takeEvent_of_none hn]
    rfl
  obtain ⟨-, rfl⟩ | ⟨image, rfl, -, ⟨-, rfl⟩ | ⟨-, rfl⟩⟩ | ⟨rnd, u, rfl, hu, rfl⟩ | ⟨-, rfl⟩ |
    ⟨k, -, rfl⟩ | ⟨-, rfl⟩ := deliver_cases hd
  · cases ht
  · exact ⟨_, .inr ⟨⟨image, he⟩, rfl⟩⟩
  · exact (running rfl).elim
  · obtain ⟨c, rfl⟩ := cpuStep_raises hu hs ht
    refine ⟨c, .inl ⟨by simp [he], ?_⟩⟩
    have htake : s.takeEvent.leaveBoot.env.rndIn = none := (Env.take_rndIn _).trans hrnd
    exact congrArg (raiseWith c (fetchedWord s)) (State.offerRnd_none_eq htake)
  · exact (running rfl).elim
  · exact (running rfl).elim
  · exact (running rfl).elim

/-- Settles O14: the halting instruction or step is one of the raised states, whose record is read off. -/
theorem fatalConditionsArePrecise : Obligations.FatalConditionsArePrecise := by
  refine ⟨fun i s t hs h ht => ?_, fun s t hs hrnd h ht => ?_⟩
  · obtain ⟨c, rfl⟩ := exec_raises h hs ht
    refine ⟨rfl, c.code_ne_none, rfl, fun hpc => ?_⟩
    rw [raise_fetched c hpc]
    exact ⟨rfl, rfl⟩
  · obtain ⟨c, ⟨hload, rfl⟩ | ⟨⟨image, hload⟩, rfl⟩⟩ := step_raises hs hrnd h ht
    · refine ⟨rfl, c.code_ne_none, rfl, ?_⟩
      rw [raiseWith_err]
      by_cases hpc : s.pc.toNat + 1 < 4096
      · rw [fetchedWord_in hpc]
        exact ⟨iff_of_true rfl ⟨hpc, hload⟩, rfl⟩
      · rw [fetchedWord_out (Nat.le_of_not_lt hpc)]
        exact ⟨iff_of_false Bool.false_ne_true fun hw => hpc hw.1, rfl⟩
    · refine ⟨rfl, c.code_ne_none, rfl, ?_, rfl⟩
      exact iff_of_false Bool.false_ne_true fun hw => hw.2 image hload

/-- Settles O15: the two ends of an instruction, told apart by `HALT`. -/
theorem exactlyTheListedInstructionsRaise : Obligations.ExactlyTheListedInstructionsRaise := by
  intro i s hs
  obtain ⟨t, h⟩ := exec_answers i s
  refine ⟨t, h, ?_⟩
  obtain ⟨hr, c, rfl⟩ | ⟨hr, hhalt, -⟩ := exec_cases h
  · exact iff_of_true rfl hr
  · exact iff_of_false (by simp [hhalt, hs]) hr

/-- Settles O16: the two tests of the call stack, each before anything else. -/
theorem stackConditionsAreRecorded : Obligations.StackConditionsAreRecorded := by
  refine ⟨fun s hs hpc => ?_, fun s nnn hs hpc => ?_⟩
  · have hret : exec .ret s = .next (raise .callStackUnderflow s) := by simp only [exec, execRet, hs]
    rw [hret, raise_fetched _ hpc]
    rfl
  · have hcall : exec (.call nnn) s = .next (raise .callStackOverflow s) := if_pos hs
    rw [hcall, raise_fetched _ hpc]
    rfl

/-- Settles O17: the four instructions put the same range check before their effect. -/
theorem blockOutOfBoundsRaisesBeforeAnyChange : Obligations.BlockOutOfBoundsRaisesBeforeAnyChange := by
  intro i k s hpc hk hout hi
  have hraise : exec i s = .next (raise (.memoryOutOfBounds (max s.i.toNat 4096)) s) := by
    obtain ⟨x, y, rfl⟩ | ⟨⟨x, rfl⟩, rfl⟩ | ⟨x, rfl | rfl, rfl⟩ := hi
    all_goals exact congrArg Host.Outcome.next (withRange_out s _ hk hout)
  rw [hraise, raise_fetched _ hpc]
  rfl

end Sys2Proof.Machine
end

section
/-! PROOFS. Calls, returns and register skips (41_control_flow.md R91, R92, R93, R97, R98, R99). -/

namespace Sys2Proof.Machine

/-! ### Encodings -/

/-- A row of top nibble 0: an instruction it selects reads no nibble that the row's mask leaves out. -/
theorem and_F0FF_eq_iff_dispatchZero {w : Word} {i : Instr} (nn : BitVec 8)
    (hi : dispatchZero nn = some i) (henc : encode i = encodeXnn 0x0 0 nn) (hmask : i.readMask = 0xF0FF) :
    w &&& 0xF0FF = encodeXnn 0x0 0 nn ↔ decodeWord w = some i := by
  refine ⟨fun h => ?_, fun hd => ?_⟩
  · obtain ⟨hop, hnn⟩ := (and_F0FF_eq_iff w 0x0 nn).1 h
    rw [decodeWord, dispatch, hop, hnn]
    exact hi
  · obtain ⟨-, henc'⟩ := reencodes_of_decodeWord hd
    rw [← henc, henc', hmask]

theorem decodeWord_ret_iff (w : Word) : w &&& 0xF0FF = 0x00EE ↔ decodeWord w = some .ret :=
  and_F0FF_eq_iff_dispatchZero 0xEE rfl rfl rfl

theorem decodeWord_seReg_iff (w : Word) :
    w &&& 0xF000 = 0x5000 ↔
      decodeWord w = some (.seReg (regOf (fieldsOf w).x) (regOf (fieldsOf w).y)) :=
  and_F000_eq_iff_decodeWord 0x5 (op_encodeXyn ..) fun h => by
    rw [decodeWord, dispatch, h]; rfl

theorem decodeWord_sneReg_iff (w : Word) :
    w &&& 0xF000 = 0x9000 ↔
      decodeWord w = some (.sneReg (regOf (fieldsOf w).x) (regOf (fieldsOf w).y)) :=
  and_F000_eq_iff_decodeWord 0x9 (op_encodeXyn ..) fun h => by
    rw [decodeWord, dispatch, h]; rfl

/-! ### The call stack -/

theorem exec_call_below (nnn : BitVec 12) {s : State} (h : s.sp < 16) :
    exec (.call nnn) s = .next (s.callTo (addr12 nnn)) :=
  if_neg (Nat.ne_of_lt h)

theorem exec_ret_cons {s : State} {a : Word} {rest : List Word} (h : s.stack = a :: rest) :
    exec .ret s = .next (s.returnTo a rest) := by
  simp only [exec, execRet, h]

/-- With one entry more on top, the old entries keep their slots and the new one has the next. -/
theorem State.slot_of_stack_cons {s t : State} {a : Word} (h : t.stack = a :: s.stack) :
    t.slot s.sp = some a ∧ ∀ k, k < s.sp → t.slot k = s.slot k := by
  simp only [State.slot, State.sp, h, List.reverse_cons]
  refine ⟨?_, fun k hk => ?_⟩
  · rw [← List.length_reverse, List.getElem?_concat_length]
  · exact List.getElem?_append_left (by simpa using hk)

/-- Settles O20: below the bound the call puts its entry on top and jumps. -/
theorem callPushesTheReturnAddress : Obligations.CallPushesTheReturnAddress := by
  intro nnn s hsp
  obtain ⟨hnew, hold⟩ := State.slot_of_stack_cons (s.callTo_stack (addr12 nnn))
  exact ⟨s.callTo (addr12 nnn), exec_call_below nnn hsp, toNat_addr12 nnn, rfl,
    ⟨s.pc + 2, s.advance_toNat, hnew⟩, hold, s.frame_callTo (addr12 nnn)⟩

/-- Settles O21: the top entry goes to `PC`, and seen from the state after, the state before has that one
entry more. -/
theorem returnPopsTheMostRecentAddress : Obligations.ReturnPopsTheMostRecentAddress := by
  refine ⟨decodeWord_ret_iff, fun s hsp => ?_⟩
  obtain ⟨a, rest, hs⟩ := List.exists_cons_of_length_pos hsp
  have hsp' : s.sp = rest.length + 1 := by rw [State.sp, hs, List.length_cons]
  obtain ⟨htop, hold⟩ := State.slot_of_stack_cons (s := s.returnTo a rest) hs
  refine ⟨s.returnTo a rest, exec_ret_cons hs, ?_, hsp'.symm, fun k hk => (hold k hk).symm,
    s.frame_returnTo a rest⟩
  rw [hsp', Nat.add_sub_cancel]
  exact htop

/-- Settles O22: the return takes back the entry of the call, so of both only the move of `PC` is left. -/
theorem returnUndoesCall : Obligations.ReturnUndoesCall := fun nnn s hsp =>
  ⟨s.callTo (addr12 nnn), s.setPc (s.pc + 2), exec_call_below nnn hsp,
    exec_ret_cons (s.callTo_stack (addr12 nnn)), rfl, rfl, s.frame_setPc (s.pc + 2)⟩

/-! ### Skips and jumps -/

/-- Settles O24: top nibbles 5 and 9 are the rows of the two skips on registers. -/
theorem registerSkips : Obligations.RegisterSkips := by
  refine ⟨decodeWord_seReg_iff, decodeWord_sneReg_iff, fun x y s => ⟨?seReg, ?sneReg⟩⟩
  case seReg =>
    exact ⟨s.skipIf (s.getV x == s.getV y), rfl, s.toNat_pc_skipIf_beq _ _, s.frame_skipIf _⟩
  case sneReg =>
    exact ⟨s.skipIf (s.getV x != s.getV y), rfl, s.toNat_pc_skipIf_bne _ _, s.frame_skipIf _⟩

/-- Settles O25: the jump writes to `PC` what it holds. -/
theorem jumpToSelfChangesNothing : Obligations.JumpToSelfChangesNothing := by
  intro nnn s h
  have hpc : addr12 nnn = s.pc := BitVec.eq_of_toNat_eq (by rw [toNat_addr12, h])
  show Host.Outcome.next (s.setPc (addr12 nnn)) = .next s
  rw [hpc]
  rfl

end Sys2Proof.Machine
end

section
/-! PROOFS. The arithmetic that writes a flag (42_load_alu.md R105 to R110, R113). -/

namespace Sys2Proof.Machine

/-! ### Encodings -/

theorem decodeWord_shr_iff (w : Word) :
    w &&& 0xF00F = 0x8006 ↔ decodeWord w = some (.shr (regOf (fieldsOf w).x)) :=
  and_F00F_eq_iff_decodeWord 0x6 rfl

theorem decodeWord_shl_iff (w : Word) :
    w &&& 0xF00F = 0x800E ↔ decodeWord w = some (.shl (regOf (fieldsOf w).x)) :=
  and_F00F_eq_iff_decodeWord 0xE rfl

/-! ### Results and flags as numbers -/

theorem toNat_sub_byte (a b : Byte) : (a - b).toNat = (a.toNat + 256 - b.toNat) % 256 := by
  have := b.isLt
  rw [BitVec.toNat_sub]
  omega

theorem toNat_flagByte_borrowOut (a b : Byte) :
    (flagByte (borrowOut a b)).toNat = if a.toNat < b.toNat then 1 else 0 := by
  simp [borrowOut]

theorem toNat_shiftRight_one (a : Byte) : (a >>> 1).toNat = a.toNat / 2 := by
  rw [BitVec.toNat_ushiftRight, Nat.shiftRight_eq_div_pow]

theorem toNat_shiftLeft_one (a : Byte) : (a <<< 1).toNat = a.toNat * 2 % 256 := by
  rw [BitVec.toNat_shiftLeft, Nat.shiftLeft_eq]

/-- Bit `k` of a byte as the number a flag holds. -/
theorem toNat_flagByte_getLsbD (a : Byte) (k : Nat) :
    (flagByte (a.getLsbD k)).toNat = a.toNat / 2 ^ k % 2 := by
  rw [toNat_flagByte, BitVec.getLsbD, Nat.testBit_eq_decide_div_mod_eq]
  have := Nat.mod_two_eq_zero_or_one (a.toNat / 2 ^ k)
  split <;> simp_all

theorem toNat_flagByte_shiftedOutRight (a : Byte) :
    (flagByte (shiftedOutRight a)).toNat = a.toNat % 2 := by
  rw [shiftedOutRight, toNat_flagByte_getLsbD, Nat.pow_zero, Nat.div_one]

theorem toNat_flagByte_shiftedOutLeft (a : Byte) :
    (flagByte (shiftedOutLeft a)).toNat = a.toNat / 128 := by
  have := a.isLt
  rw [shiftedOutLeft, toNat_flagByte_getLsbD]
  omega

/-! ### Effects -/

/-- What the four instructions that always write the flag do: the result in `Vx` unless `x` is `VF`, the
flag in `VF`, the next `PC`, the frame. -/
theorem State.setResultFlag_advance_spec (s : State) (x : Reg) (b : Byte) (c : Bool) :
    (x ≠ VF → (s.setResultFlag x b c).advance.getV x = b) ∧
    (s.setResultFlag x b c).advance.getV VF = flagByte c ∧
    (s.setResultFlag x b c).advance.pc.toNat = (s.pc.toNat + 2) % 65536 ∧
    Frame {.pc, .v x, .v VF} s (s.setResultFlag x b c).advance := by
  refine ⟨fun hx => ?_, ?_, (s.setResultFlag x b c).advance_toNat, s.frame_setResultFlag_advance x b c⟩
  · rw [State.getV_advance, State.getV_setResultFlag, if_neg hx, if_pos rfl]
  · rw [State.getV_advance, State.getV_setResultFlag, if_pos rfl]

theorem carryOut_of_lt {a b : Byte} (h : 255 < a.toNat + b.toNat) : carryOut a b = true :=
  decide_eq_true h

theorem carryOut_of_le {a b : Byte} (h : a.toNat + b.toNat ≤ 255) : carryOut a b = false :=
  decide_eq_false (Nat.not_lt_of_le h)

/-- Settles O29: the carry alone decides whether `VF` is written after the sum. -/
theorem addRegistersCarry : Obligations.AddRegistersCarry := by
  intro x y s
  have hv := fun q => s.getV_setResultCarry x q (s.getV x + s.getV y) (carryOut (s.getV x) (s.getV y))
  refine ⟨_, rfl, fun hx => ⟨?sum, fun hc => ?carry, fun hc => ?noCarry⟩,
    fun hx => ⟨fun hc => ?carryF, fun hc => ?noCarryF⟩, ?pc,
    s.frame_setResultCarry_advance x _ _⟩
  case pc => rw [State.advance_toNat, State.setResultCarry_pc]
  all_goals rw [State.getV_advance, hv]
  case sum => rw [if_neg (fun h => hx h.1), if_pos rfl, BitVec.toNat_add]
  case carry | carryF => rw [if_pos ⟨rfl, carryOut_of_lt hc⟩]
  case noCarry => rw [carryOut_of_le hc, if_neg (fun h => Bool.noConfusion h.2), if_neg (Ne.symm hx)]
  case noCarryF =>
    rw [carryOut_of_le hc, if_neg (fun h => Bool.noConfusion h.2), if_pos hx.symm, BitVec.toNat_add,
      Nat.mod_eq_of_lt (by omega)]

/-- Settles O30: the two subtractions differ in the order of their operands alone. -/
theorem subtractSetsBorrow : Obligations.SubtractSetsBorrow := by
  intro x y s
  refine ⟨⟨_, rfl, ?sub⟩, ⟨_, rfl, ?subn⟩⟩
  case sub =>
    obtain ⟨hr, hf, hpc, hframe⟩ := s.setResultFlag_advance_spec x (s.getV x - s.getV y)
      (borrowOut (s.getV x) (s.getV y))
    exact ⟨fun hx => by rw [hr hx, toNat_sub_byte], by rw [hf, toNat_flagByte_borrowOut], hpc, hframe⟩
  case subn =>
    obtain ⟨hr, hf, hpc, hframe⟩ := s.setResultFlag_advance_spec x (s.getV y - s.getV x)
      (borrowOut (s.getV y) (s.getV x))
    exact ⟨fun hx => by rw [hr hx, toNat_sub_byte], by rw [hf, toNat_flagByte_borrowOut], hpc, hframe⟩

/-- Settles O31: low nibbles 6 and 0xE of top nibble 8 are the rows of the shifts, whose `y` nibble is not
read; the bit that leaves is bit 0 or bit 7. -/
theorem shiftsSetTheBitThatLeaves : Obligations.ShiftsSetTheBitThatLeaves := by
  refine ⟨decodeWord_shr_iff, decodeWord_shl_iff, fun x s => ⟨⟨_, rfl, ?shr⟩, ⟨_, rfl, ?shl⟩⟩⟩
  case shr =>
    obtain ⟨hr, hf, hpc, hframe⟩ := s.setResultFlag_advance_spec x (s.getV x >>> 1)
      (shiftedOutRight (s.getV x))
    exact ⟨fun hx => by rw [hr hx, toNat_shiftRight_one], by rw [hf, toNat_flagByte_shiftedOutRight],
      hpc, hframe⟩
  case shl =>
    obtain ⟨hr, hf, hpc, hframe⟩ := s.setResultFlag_advance_spec x (s.getV x <<< 1)
      (shiftedOutLeft (s.getV x))
    exact ⟨fun hx => by rw [hr hx, toNat_shiftLeft_one], by rw [hf, toNat_flagByte_shiftedOutLeft],
      hpc, hframe⟩

end Sys2Proof.Machine
end

section
/-! PROOFS. The index register and the block accesses in range (43_index_memory.md R116 to R121). -/

namespace Sys2Proof.Machine

/-! ### The index register -/

theorem toNat_add_zextByte (a : Word) (b : Byte) : (a + zextByte b).toNat = (a.toNat + b.toNat) % 65536 := by
  rw [BitVec.toNat_add, toNat_zextByte]

/-- Settles O33: both write `I` alone, one the 16-bit sum, the other the glyph's address. -/
theorem indexArithmetic : Obligations.IndexArithmetic := fun x s =>
  ⟨⟨(s.setI (s.i + zextByte (s.getV x))).advance, rfl, toNat_add_zextByte s.i (s.getV x),
      State.advance_toNat _, s.frame_setI_advance _⟩,
    ⟨(s.setI (glyphAddr (s.getV x))).advance, rfl, toNat_glyphAddr (s.getV x),
      State.advance_toNat _, s.frame_setI_advance _⟩⟩

/-! ### What a store leaves in memory -/

theorem State.readMem_storeBytes_in (s : State) (a : Nat) {bs : List Byte} {k : Nat} {b : Byte}
    (h : bs[k]? = some b) : (s.storeBytes a bs).readMem (a + k) = b := by
  have hk : k < bs.length := (List.getElem?_eq_some_iff.1 h).1
  rw [State.readMem_storeBytes, if_pos ⟨by omega, by omega⟩, Nat.add_sub_cancel_left, h]
  rfl

theorem State.readMem_storeBytes_out (s : State) {a c : Nat} {bs : List Byte}
    (h : c < a ∨ a + bs.length ≤ c) : (s.storeBytes a bs).readMem c = s.readMem c := by
  rw [State.readMem_storeBytes, if_neg (by omega)]

/-- The digits of a byte fit bytes, so nothing is cut off. -/
theorem bcdDigits_spec (b : Byte) : ∃ h t u : Byte, bcdDigits b = [h, t, u] ∧
    h.toNat = b.toNat / 100 ∧ t.toNat = b.toNat / 10 % 10 ∧ u.toNat = b.toNat % 10 := by
  have := b.isLt
  refine ⟨_, _, _, rfl, ?_, ?_, ?_⟩
  all_goals
    rw [BitVec.toNat_ofNat]
    omega

/-- Settles O34: the three digits are the block stored at `I`. -/
theorem decimalDigitsStored : Obligations.DecimalDigitsStored := by
  intro x s hin
  obtain ⟨h, t, u, hd, hh, ht, hu⟩ := bcdDigits_spec (s.getV x)
  refine ⟨(s.storeBytes s.i.toNat (bcdDigits (s.getV x))).advance, exec_ldBVx_in x hin, ?_, ?_, ?_,
    State.advance_toNat _, s.frame_ldBVx x⟩
  all_goals rw [State.readMem_advance, hd]
  · exact (congrArg _ (s.readMem_storeBytes_in s.i.toNat (k := 0) rfl)).trans hh
  · exact (congrArg _ (s.readMem_storeBytes_in s.i.toNat (k := 1) rfl)).trans ht
  · exact (congrArg _ (s.readMem_storeBytes_in s.i.toNat (k := 2) rfl)).trans hu

theorem State.readMem_storeBytes_blockOfV (s : State) {x r : Reg} (hr : r ≤ x) :
    (s.storeBytes s.i.toNat (s.blockOfV x)).readMem (s.i.toNat + r.val) = s.getV r :=
  s.readMem_storeBytes_in s.i.toNat (s.getElem?_blockOfV x r hr)

theorem State.getV_loadV_blockAtI (s : State) {x r : Reg} (hr : r ≤ x) :
    (s.loadV (s.blockAtI (x.val + 1))).getV r = s.readMem (s.i.toNat + r.val) := by
  rw [State.getV_loadV, State.getElem?_blockAtI, if_pos (Nat.lt_succ_of_le hr)]
  rfl

/-- Settles O35: the registers are the block stored at `I`. -/
theorem registerBlockStored : Obligations.RegisterBlockStored := fun x s hin =>
  ⟨(s.storeBytes s.i.toNat (s.blockOfV x)).advance, exec_ldMemVx_in x hin,
    fun _ hr => s.readMem_storeBytes_blockOfV hr, State.advance_toNat _, s.frame_ldMemVx x⟩

/-- Settles O36: the block at `I` goes to the registers. -/
theorem registerBlockLoaded : Obligations.RegisterBlockLoaded := fun x s hin =>
  ⟨(s.loadV (s.blockAtI (x.val + 1))).advance, exec_ldVxMem_in x hin,
    fun _ hr => s.getV_loadV_blockAtI hr, State.advance_toNat _, s.frame_ldVxMem x⟩

/-- Settles O37: neither instruction moves `I`, so the load reads the bytes that the store wrote. -/
theorem registerBlockRoundTrip : Obligations.RegisterBlockRoundTrip := by
  intro x s w hin
  refine ⟨_, _, exec_ldMemVx_in x hin, exec_ldVxMem_in x hin, fun r hr => ?_, rfl⟩
  exact (State.getV_loadV_blockAtI _ hr).trans (s.readMem_storeBytes_blockOfV hr)

/-! ### A store seen by the next fetch (R54) -/

/-- `ByteAfterBlockStore` says what memory holds after the store. -/
theorem readMem_of_byteAfterBlockStore {s : State} {x : Reg} {b : Nat} {v : Byte}
    (h : ByteAfterBlockStore s x b v) : (s.storeBytes s.i.toNat (s.blockOfV x)).readMem b = v := by
  obtain ⟨r, hr, rfl, rfl⟩ | ⟨hout, rfl⟩ := h
  · exact s.readMem_storeBytes_blockOfV hr
  · exact s.readMem_storeBytes_out (by rw [State.length_blockOfV]; omega)

/-- `ByteAfterDigitStore` says what memory holds after the store. -/
theorem readMem_of_byteAfterDigitStore {s : State} {x : Reg} {b : Nat} {v : Byte}
    (h : ByteAfterDigitStore s x b v) :
    (s.storeBytes s.i.toNat (bcdDigits (s.getV x))).readMem b = v := by
  obtain ⟨hd, td, ud, hdigits, hh, ht, hu⟩ := bcdDigits_spec (s.getV x)
  obtain ⟨rfl, hv⟩ | ⟨rfl, hv⟩ | ⟨rfl, hv⟩ | ⟨hout, rfl⟩ := h
  case inr.inr.inr => exact s.readMem_storeBytes_out (by rw [length_bcdDigits]; omega)
  all_goals rw [hdigits]
  · rw [BitVec.eq_of_toNat_eq (hv.trans hh.symm)]
    exact s.readMem_storeBytes_in s.i.toNat (k := 0) rfl
  · rw [BitVec.eq_of_toNat_eq (hv.trans ht.symm)]
    exact s.readMem_storeBytes_in s.i.toNat (k := 1) rfl
  · rw [BitVec.eq_of_toNat_eq (hv.trans hu.symm)]
    exact s.readMem_storeBytes_in s.i.toNat (k := 2) rfl

/-- A fetch reads the two bytes that memory holds, wherever `PC` is put. -/
theorem fetch_at {t : State} {a : Word} {hi lo : Byte} (ha : a.toNat + 1 < 4096)
    (hhi : t.readMem a.toNat = hi) (hlo : t.readMem (a.toNat + 1) = lo) :
    fetch { t with pc := a } = .ok (hi ++ lo) := by
  subst hhi hlo
  exact fetch_in (s := { t with pc := a }) ha

/-- Settles O38: a fetch reads memory, and memory holds what the two stores leave. -/
theorem storeIsSeenByTheNextFetch : Obligations.StoreIsSeenByTheNextFetch := by
  refine ⟨fun x s hin => ⟨_, exec_ldMemVx_in x hin, fun a hi lo ha hhi hlo => ?_⟩,
    fun x s hin => ⟨_, exec_ldBVx_in x hin, fun a hi lo ha hhi hlo => ?_⟩⟩
  · exact fetch_at ha (readMem_of_byteAfterBlockStore hhi) (readMem_of_byteAfterBlockStore hlo)
  · exact fetch_at ha (readMem_of_byteAfterDigitStore hhi) (readMem_of_byteAfterDigitStore hlo)

end Sys2Proof.Machine
end

section
/-! PROOFS. The display (44_display.md R126 to R134). -/

namespace Sys2Proof.Machine

theorem decodeWord_cls_iff (w : Word) : w &&& 0xF0FF = 0x00E0 ↔ decodeWord w = some .cls :=
  and_F0FF_eq_iff_dispatchZero 0xE0 rfl rfl rfl

/-- Settles O39: the blank display has no cell set. -/
theorem clearDisplay : Obligations.ClearDisplay :=
  ⟨decodeWord_cls_iff, fun s => ⟨(s.setFb FrameBuffer.blank).advance, rfl, FrameBuffer.get_blank,
    State.advance_toNat _, s.frame_setFb_advance _⟩⟩

/-! ### Drawing -/

/-- The sprite of the model, its rows read from `I`, is the sprite of the statement. -/
theorem spriteHit_blockAtI_iff (s : State) (x y : Reg) (n : Nat) (c : Fin Config.width)
    (r : Fin Config.height) :
    SpriteHit (s.getV x).toNat (s.blockAtI n) (s.getV y).toNat c r ↔ SpriteLit s x y n c r := by
  constructor
  · rintro ⟨j, b, hb, hr, k, hk, hbit, hc⟩
    rw [State.getElem?_blockAtI] at hb
    split at hb <;> cases hb
    exact ⟨j, k, ‹_›, hk, hbit, (wrapX_eq_iff c _).1 hc, (wrapY_eq_iff r _).1 hr⟩
  · rintro ⟨j, k, hj, hk, hbit, hc, hr⟩
    refine ⟨j, s.readMem (s.i.toNat + j), ?_, (wrapY_eq_iff r _).2 hr, k, hk, hbit,
      (wrapX_eq_iff c _).2 hc⟩
    rw [State.getElem?_blockAtI, if_pos hj]

/-- The display and the collision after `Dxyn` of at most 15 rows (R127, R128, R130). -/
theorem drawSprite_blockAtI (s : State) (x y : Reg) {n : Nat} (hn : n ≤ 15) :
    let drawn := drawSprite (s.getV x).toNat (s.blockAtI n) (s.getV y).toNat s.fb
    (∀ c r, drawn.1.get c r = true ↔ ¬(s.fb.get c r = true ↔ SpriteLit s x y n c r)) ∧
      (drawn.2 = true ↔ ∃ c r, s.fb.get c r = true ∧ SpriteLit s x y n c r) := by
  have hlen : (s.blockAtI n).length ≤ 32 := by
    rw [State.length_blockAtI]
    omega
  have h := drawSprite_spec (s.getV x).toNat (s.blockAtI n) (s.getV y).toNat s.fb hlen
  simpa only [spriteHit_blockAtI_iff, and_comm (a := SpriteLit s x y n _ _)] using h

theorem flagByte_eq_one_iff (c : Bool) : flagByte c = 1 ↔ c = true := by
  cases c <;> decide

/-- Settles O40: in range the instruction draws the sprite, and the flag is the collision. -/
theorem drawIsXorOfThePlacedSprite : Obligations.DrawIsXorOfThePlacedSprite := by
  intro x y n s hn hin
  obtain ⟨hcell, hflag⟩ := drawSprite_blockAtI s x y hn
  refine ⟨_, exec_drw_in x y hin, hcell, ?_, ?_, State.advance_toNat _,
    s.frame_setFb_setFlag_advance _ _⟩
  all_goals rw [State.getV_advance, State.setFlag_eq, State.getV_setV_same]
  · cases (drawSprite (s.getV x).toNat (s.blockAtI n) (s.getV y).toNat s.fb).2
    · exact .inl rfl
    · exact .inr rfl
  · exact (flagByte_eq_one_iff _).trans hflag

/-- What a sprite covers depends on memory, `I` and the two coordinates alone. -/
theorem spriteLit_congr {s t : State} {x y : Reg} {n : Nat} (hmem : ∀ a, t.readMem a = s.readMem a)
    (hi : t.i = s.i) (hx : t.getV x = s.getV x) (hy : t.getV y = s.getV y) (c : Fin Config.width)
    (r : Fin Config.height) : SpriteLit t x y n c r ↔ SpriteLit s x y n c r := by
  simp only [SpriteLit, hmem, hi, hx, hy]

/-- Settles O41: the first draw leaves the sprite where it was, so the second exclusive or undoes it and
collides where the first one lit a cell. -/
theorem drawingTwiceRestoresTheDisplay : Obligations.DrawingTwiceRestoresTheDisplay := by
  intro x y n s hx hy hn hin
  obtain ⟨t, ht, hcell, -, -, -, hframe⟩ := drawIsXorOfThePlacedSprite x y n s hn hin
  have hi : t.i = s.i := hframe .i (by simp)
  obtain ⟨u, hu, hcell', -, hflag', -, -⟩ := drawIsXorOfThePlacedSprite x y n t hn (by rwa [hi])
  have hlit := spriteLit_congr (n := n) (fun a => hframe (.mem a) (by simp)) hi
    (hframe (.v x) (by simpa using hx)) (hframe (.v y) (by simpa using hy))
  refine ⟨t, u, ht, hu, FrameBuffer.ext_get fun c r => ?_, ?_⟩
  · rw [Bool.eq_iff_iff, hcell', hcell, hlit]
    tauto
  · rw [hflag']
    refine exists_congr fun c => exists_congr fun r => ?_
    rw [hcell, hlit, ← Bool.not_eq_true]
    tauto

/-! ### What the host reads -/

theorem FrameBuffer.cells_eq_flatten (fb : FrameBuffer) : fb.cells = (Vector.flatten fb).toList := by
  simp [FrameBuffer.cells, Vector.flatten, Vector.toList, Function.comp_def]

/-- Settles O42: the rows one after the other, each of 64 cells. -/
theorem hostReadsTheDisplay : Obligations.HostReadsTheDisplay := by
  refine ⟨fun s => ?_, fun s hp => step_event hp⟩
  rw [State.getBuffer, FrameBuffer.cells_eq_flatten]
  refine ⟨Vector.length_toList, fun c r => ?_⟩
  have hr := r.isLt
  have hc := c.isLt
  have hlt : r.val * 64 + c.val < 32 * 64 := by omega
  have hrow : (r.val * 64 + c.val) / 64 = r.val := by omega
  have hcol : (r.val * 64 + c.val) % 64 = c.val := by omega
  rw [List.getElem?_eq_getElem (by rw [Vector.length_toList]; exact hlt), Vector.getElem_toList,
    Vector.getElem_flatten hlt]
  simp only [hrow, hcol]
  rfl

end Sys2Proof.Machine
end

section
/-! PROOFS. Keyboard, sound timer and random byte (45_keyboard_timer_random.md R135 to R143). -/

namespace Sys2Proof.Machine

/-! ### Encodings -/

theorem decodeWord_ldVxK_iff (w : Word) :
    w &&& 0xF0FF = 0xF00A ↔ decodeWord w = some (.ldVxK (regOf (fieldsOf w).x)) :=
  and_F0FF_eq_iff_decodeWord 0x0A rfl

theorem decodeWord_ldStVx_iff (w : Word) :
    w &&& 0xF0FF = 0xF018 ↔ decodeWord w = some (.ldStVx (regOf (fieldsOf w).x)) :=
  and_F0FF_eq_iff_decodeWord 0x18 rfl

/-! ### Keyboard -/

/-- Settles O43: a skip on the key test of the whole byte, and on its negation. -/
theorem keySkips : Obligations.KeySkips := by
  intro x s
  refine ⟨⟨_, rfl, ?_, s.frame_skipIf _⟩, ⟨_, rfl, ?_, s.frame_skipIf _⟩⟩
  · simp only [State.skipIf_toNat, s.keyPressed_iff]
  · simp only [State.skipIf_toNat, Bool.not_eq_true', ← Bool.not_eq_true, s.keyPressed_iff, ite_not]

theorem toNat_setWidth_keyCode (k : KeyCode) : (k.setWidth 8).toNat = k.toNat := by
  have := k.isLt
  rw [BitVec.toNat_setWidth, Nat.mod_eq_of_lt (by omega)]

/-- Settles O44: the key decides between a register write and no change. -/
theorem keyWait : Obligations.KeyWait := by
  refine ⟨decodeWord_ldVxK_iff, fun x s => ⟨fun k hk => ?key, fun hk => ?noKey⟩⟩
  case key =>
    obtain ⟨hv, hpc, hframe⟩ := s.setV_advance_spec x (k.setWidth 8)
    exact ⟨_, by simp only [exec, execLdVxK, hk], by rw [hv, toNat_setWidth_keyCode], hpc, hframe⟩
  case noKey => simp only [exec, execLdVxK, hk]

/-! ### Sound timer -/

/-- Settles O46: low byte 0x18 of top nibble 0xF is its row, and its meaning writes `ST` alone. -/
theorem soundTimerWritten : Obligations.SoundTimerWritten :=
  ⟨decodeWord_ldStVx_iff, fun x s => ⟨(s.setSt (s.getV x)).advance, rfl, rfl, State.advance_toNat _,
    s.frame_setSt_advance _⟩⟩

/-! ### Random byte -/

theorem State.rndByte_of_offered {s : State} {b : Byte} (h : s.env.rndIn = some b) : s.rndByte = b := by
  rw [State.rndByte, h, Option.getD_some]

/-- What `Cxnn` leaves in its register. -/
theorem State.getV_rnd (s : State) (x : Reg) (nn : Byte) :
    (s.rndUsed.setV x (s.rndByte &&& nn)).advance.getV x = s.rndByte &&& nn :=
  s.rndUsed.getV_setV_same x _

/-- Settles O47: the byte masked is the one the step offers, and a `step(rnd)` event offers the host's. -/
theorem randomByteIsMasked : Obligations.RandomByteIsMasked := by
  refine ⟨fun x nn s => ?_, fun x nn b s hh hp hpc hd => ?_⟩
  · refine ⟨(s.rndUsed.setV x (s.rndByte &&& nn)).advance, rfl, s.getV_rnd x nn, fun b hb => ?_,
      State.advance_toNat _, s.frame_rndUsed_setV_advance x _⟩
    rw [s.getV_rnd, State.rndByte_of_offered hb]
  · obtain ⟨-, hstep⟩ := stepRunsTheDecodedInstruction s (.rnd x nn) hh hpc hd
    exact ⟨_, hstep b hp, (s.takeEvent.offerRnd (some b)).leaveBoot.getV_rnd x nn⟩

end Sys2Proof.Machine
end

section
/-! PROOFS. The host's events and the reset state (00_scope.md R6; 70_reset_and_hazards.md R170, R173, R187;
60_exceptions.md R160). -/

namespace Sys2Proof.Machine

/-! ### Frames -/

theorem State.frame_setDt (s : State) (b : Byte) : Frame {.dt} s (s.setDt b) := by
  intro p hp
  cases p with
  | dt => exact absurd rfl hp
  | _ => rfl

theorem State.frame_setKey (s : State) (k : Option KeyCode) : Frame {.key} s (s.setKey k) := by
  intro p hp
  cases p with
  | key => exact absurd rfl hp
  | _ => rfl

theorem State.frame_leaveBoot (s : State) : Frame {.booting} s s.leaveBoot := by
  intro p hp
  cases p with
  | booting => exact absurd rfl hp
  | _ => rfl

/-! ### `set_key` and `tick` -/

/-- Settles O48: the event writes `KEY` alone. -/
theorem setKeyReplacesTheKey : Obligations.SetKeyReplacesTheKey := fun k s hp =>
  ⟨s.takeEvent.setKey k, step_event hp, rfl, s.takeEvent.frame_setKey k⟩

/-- The timer counts down by one and stops at 0. -/
theorem toNat_dt_tickEvent (s : State) : (tickEvent s).dt.toNat = s.dt.toNat - 1 := by
  rw [tickEvent, State.setDt_dt]
  split
  · rename_i h
    rw [h]
    rfl
  · rename_i h
    have h0 : s.dt.toNat ≠ 0 := fun h0 => h (BitVec.eq_of_toNat_eq h0)
    have := s.dt.isLt
    rw [toNat_sub_byte, show (1 : Byte).toNat = 1 from rfl]
    omega

theorem frame_tickEvent (s : State) : Frame {.dt} s (tickEvent s) := s.frame_setDt _

/-- Settles O49: the event writes `DT` alone. -/
theorem tickCountsDownAndStopsAtZero : Obligations.TickCountsDownAndStopsAtZero := fun s hp =>
  ⟨tickEvent s.takeEvent, step_event hp, toNat_dt_tickEvent s.takeEvent, frame_tickEvent s.takeEvent⟩

/-! ### `load` -/

theorem loadEvent_fits {s : State} {image : List Byte} (hb : s.env.booting = true)
    (hlen : image.length ≤ 3584) : loadEvent image s = .next (s.leaveBoot.storeBytes 0x200 image) :=
  (if_pos hb).trans (if_neg (Nat.not_lt_of_le hlen))

theorem loadEvent_tooLong {s : State} {image : List Byte} (hb : s.env.booting = true)
    (hlen : 3584 < image.length) :
    loadEvent image s = .next (raiseWith (.memoryOutOfBounds 4096) none s.leaveBoot) :=
  (if_pos hb).trans (if_pos hlen)

/-- Settles O50: in its time the event is decided by the length of the image. -/
theorem loadCopiesTheImageOrHalts : Obligations.LoadCopiesTheImageOrHalts := by
  intro image s hp hb
  have hb' : s.takeEvent.env.booting = true := (Env.take_booting _).trans hb
  refine ⟨fun hlen => ?_, fun hlen => ?_⟩
  · refine ⟨_, (step_event hp).trans (loadEvent_fits hb' hlen),
      fun j b hj => State.readMem_storeBytes_in _ _ hj, rfl, ?_⟩
    exact (s.takeEvent.frame_leaveBoot.mono fun _ => .inl).trans
      ((s.takeEvent.leaveBoot.frame_storeBytes 0x200 image).mono fun _ => .inr)
  · exact (step_event hp).trans (loadEvent_tooLong hb' hlen)

/-! ### `reset` -/

theorem getV_reset (r : Reg) : State.reset.getV r = 0 := by
  simp [State.getV, State.reset]

/-- Settles O51: the event puts the reset state in place of the CORE's and keeps the host's side. -/
theorem resetEventGivesTheResetState : Obligations.ResetEventGivesTheResetState := fun s hp =>
  ⟨resetEvent s.takeEvent, step_event hp, rfl, getV_reset, rfl, rfl, rfl, rfl, rfl,
    FrameBuffer.get_blank, rfl, rfl, fun _ => rfl, rfl⟩

/-- Past the font's 80 bytes, memory is 0 at reset. -/
theorem readMem_reset_of_le {a : Nat} (h : 0x50 ≤ a) : State.reset.readMem a = 0 := by
  have hfont : Config.font.length = 80 := rfl
  show Memory.blank a = 0
  rw [Memory.blank, if_pos (Nat.zero_le a), List.getElem?_eq_none (by rw [hfont]; exact h)]
  rfl

/-- Settles O52: the elements of the reset state are evaluated; the free memory is what the font does not
reach. -/
theorem resetStateValues : Obligations.ResetStateValues :=
  ⟨rfl, rfl, fun _ h => readMem_reset_of_le h, getV_reset, rfl, rfl, rfl, rfl, rfl,
    FrameBuffer.get_blank, rfl, rfl, rfl, rfl, rfl, rfl⟩

/-! ### The host's sequence -/

theorem State.frame_takeEvent (s : State) : Frame {.schedule, .eventCount} s s.takeEvent := by
  intro p hp
  cases p with
  | schedule => exact absurd (.inl rfl) hp
  | eventCount => exact absurd (.inr rfl) hp
  | tail | booting | rndIn | rndCount => simp [Part.Same]
  | _ => rfl

/-- Settles O59: the queue comes first; with none queued the tail decides. -/
theorem hostEventsAreTakenInOrder : Obligations.HostEventsAreTakenInOrder := by
  intro s
  refine ⟨fun e rest hq => ?queued, fun hq ht => ?steps, fun e es hq ht => ?cycle, fun hq ht => ?free,
    s.frame_takeEvent⟩
  case queued =>
    rw [State.takeEvent_queued hq]
    exact ⟨State.pendingEvent_queued hq, rfl, rfl⟩
  case steps =>
    have hp : s.pendingEvent = none := by simp only [State.pendingEvent, Env.pending, hq, ht]
    exact ⟨hp, State.takeEvent_of_none hp⟩
  case cycle | free =>
    simp only [State.pendingEvent, State.takeEvent, Env.pending, Env.take, hq, ht, and_self]

/-- Taking the one event of a cycle leaves the whole cycle to come. -/
theorem Env.take_cycle_singleton {e : Env} {ev : Event} (hq : e.schedule = []) (ht : e.tail = .cycle ev []) :
    e.take = e := by
  obtain ⟨schedule, tail, _, _, _, _⟩ := e
  obtain rfl : schedule = [] := hq
  obtain rfl : tail = .cycle ev [] := ht
  rfl

/-- With an endless tick after an empty queue, a step is a tick, and the same tick comes next. -/
theorem step_endlessTicks {s : State} (hq : s.env.schedule = []) (ht : s.env.tail = .cycle .tick []) :
    step s = .next (tickEvent s) := by
  have hp : s.pendingEvent = some .tick := by simp only [State.pendingEvent, Env.pending, hq, ht]
  have htake : s.takeEvent = s := by rw [State.takeEvent, Env.take_cycle_singleton hq ht]
  rw [step_event hp, htake, deliver]

theorem run_succ {M : Host.Core} {s t : M.State} (n : Nat) (h : M.step s = .next t) :
    M.run (n + 1) s = M.run n t := by
  rw [Host.Core.run, h]

/-- Settles O60, by induction on the length of the run: each step is a tick and leaves the host's sequence
as it was. -/
theorem endlessTicksRunNoInstruction : Obligations.EndlessTicksRunNoInstruction := by
  intro s n hq ht
  induction n generalizing s with
  | zero => exact ⟨s, rfl, rfl, .refl _ s⟩
  | succ n ih =>
    obtain ⟨t, hrun, hdt, hframe⟩ := ih (tickEvent s) hq ht
    refine ⟨t, (run_succ (M := core) n (step_endlessTicks hq ht)).trans hrun, ?_,
      (frame_tickEvent s).trans hframe⟩
    rw [hdt, toNat_dt_tickEvent]
    omega

end Sys2Proof.Machine
end
